-- ==== Sys2Proof/Word.lean ====
section
/-! DEFINITION. The word type of the LS-8 core and the index of a general register. -/

namespace Sys2Proof

/-- Every general register, the pc, every address and every memory byte is 8 bits wide (R6, R7, R53). -/
abbrev Byte := BitVec 8

/-- The index of a general register R0 to R7 (R20). -/
abbrev RegIdx := Fin 8

end Sys2Proof
end

