-- ==== Sys2Proof/Syntax.lean ====
section
/-! DEFINITION. The thirteen instructions of the LS-8 core (R2): their mnemonics, and their abstract form with operands. -/

namespace Sys2Proof

/-- The thirteen mnemonics, in the order of R2; what `OPCODE_MAP` gives a byte to (R8). -/
inductive Mnemonic where
  | HLT | LDI | PRN | MUL | ADD | PUSH | POP | CALL | RET | CMP | JMP | JEQ | JNE
  deriving DecidableEq, Repr

/-- An instruction with its operand bytes, one constructor per row of the opcode table (R2, R73, R77).
A register operand is the WHOLE operand byte (R75), so that a byte of 8 or more, which names no register and
raises IllegalRegister (R90, R163), can be written down too; `Instr.wellFormed` says that none stands here. -/
inductive Instr where
  /-- HLT: halt execution (R140), format F0. -/
  | hlt
  /-- LDI r, imm: load the immediate into register r (R100), format F2RI. -/
  | ldi (r imm : Byte)
  /-- PRN r: output the value of register r (R103), format F1R. -/
  | prn (r : Byte)
  /-- MUL a, b: multiply two registers, store in the first (R115), format F2RR. -/
  | mul (a b : Byte)
  /-- ADD a, b: add two registers, store in the first (R112), format F2RR. -/
  | add (a b : Byte)
  /-- PUSH r: push register r onto the stack (R132), format F1R. -/
  | push (r : Byte)
  /-- POP r: pop the stack into register r (R135), format F1R. -/
  | pop (r : Byte)
  /-- CALL r: push the return address, jump to the address in register r (R143), format F1R. -/
  | call (r : Byte)
  /-- RET: pop the return address into the pc (R146), format F0. -/
  | ret
  /-- CMP a, b: compare two registers, set the flags (R120), format F2RR. -/
  | cmp (a b : Byte)
  /-- JMP r: jump to the address in register r (R148), format F1R. -/
  | jmp (r : Byte)
  /-- JEQ r: jump if the Equal flag is set (R150), format F1R. -/
  | jeq (r : Byte)
  /-- JNE r: jump if the Equal flag is clear (R153), format F1R. -/
  | jne (r : Byte)
  deriving DecidableEq, Repr

/-- The mnemonic an instruction is written with (R80). -/
def Instr.mnemonic : Instr → Mnemonic
  | .hlt => .HLT
  | .ldi _ _ => .LDI
  | .prn _ => .PRN
  | .mul _ _ => .MUL
  | .add _ _ => .ADD
  | .push _ => .PUSH
  | .pop _ => .POP
  | .call _ => .CALL
  | .ret => .RET
  | .cmp _ _ => .CMP
  | .jmp _ => .JMP
  | .jeq _ => .JEQ
  | .jne _ => .JNE

/-- The register operands of an instruction, in the order in which they are checked: operandA, then
operandB (R90). The immediate of LDI is no register operand (R76). -/
def Instr.regOperands : Instr → List Byte
  | .hlt => []
  | .ldi r _ => [r]
  | .prn r => [r]
  | .mul a b => [a, b]
  | .add a b => [a, b]
  | .push r => [r]
  | .pop r => [r]
  | .call r => [r]
  | .ret => []
  | .cmp a b => [a, b]
  | .jmp r => [r]
  | .jeq r => [r]
  | .jne r => [r]

end Sys2Proof
end

