-- ==== Sys2Proof/Config.lean ====
section
/-! DEFINITION. What is fixed for a machine but not by the spec: the two parameters of R10, `OPCODE_MAP` and `MEM0`. -/

namespace Sys2Proof

/-- The type of the parameter `OPCODE_MAP` (R8). Decoding, encoding and the step take one as an argument;
the spec's default value is `defaultOpcodeMap` (Decode.lean), and which maps the spec admits is `LegalMap`. -/
abbrev OpcodeMap := Mnemonic → Byte

namespace Config

/-- The launch image `MEM0` (R52): what a byte holds that nobody has written since the run started. The spec
gives no value and forbids to assume one, so this is a FREE VALUE: it has no body, nothing can be proved of it,
and it depends on the address alone, since a read may be repeated without changing anything (R53, R57).
Log entry 2. -/
opaque mem0 : Byte → Byte

end Config
end Sys2Proof
end

