-- ==== Sys2Proof/WellFormed.lean ====
section
/-! DEFINITION. Which instructions name only registers that exist (R23, R75). -/

namespace Sys2Proof

/-- An operand byte that names a register has the form 0b00000rrr, that is, a value 0 to 7 (R75). -/
def isRegByte (b : Byte) : Bool := decide (b.toNat < 8)

/-- Every register operand of the instruction names a register. -/
def Instr.wellFormed (i : Instr) : Bool := i.regOperands.all isRegByte

/-- The register operand whose IllegalRegister fault the instruction raises: the first, in the order
operandA then operandB, that names no register (R90, R164). -/
def Instr.firstIllegal? (i : Instr) : Option Byte := i.regOperands.find? fun b => !isRegByte b

end Sys2Proof
end

