-- ==== Sys2Proof/Decode.lean ====
section
/-! DEFINITION. The encoding of the thirteen instructions: formats, opcode maps, the decoder, and after it the
encoder, both taking `OPCODE_MAP` as a parameter (R8, R70 to R79). -/

namespace Sys2Proof

/-! ## Formats and operand counts -/

/-- The four instruction formats (R73). -/
inductive Format where
  | F0 | F1R | F2RR | F2RI
  deriving DecidableEq, Repr

/-- The operand bytes that follow the opcode in a format (R73). -/
def Format.operandCount : Format → Nat
  | .F0 => 0
  | .F1R => 1
  | .F2RR => 2
  | .F2RI => 2

/-- The format of each mnemonic (R73). -/
def Mnemonic.format : Mnemonic → Format
  | .HLT => .F0
  | .LDI => .F2RI
  | .PRN => .F1R
  | .MUL => .F2RR
  | .ADD => .F2RR
  | .PUSH => .F1R
  | .POP => .F1R
  | .CALL => .F1R
  | .RET => .F0
  | .CMP => .F2RR
  | .JMP => .F1R
  | .JEQ => .F1R
  | .JNE => .F1R

/-- The operand count of a mnemonic (R72). -/
def Mnemonic.operandCount (m : Mnemonic) : Nat := m.format.operandCount

/-- The operand count an opcode byte states in its bits 7:6 (R71). -/
def operandCountOf (op : Byte) : Nat := (op >>> 6).toNat

/-! ## Opcode maps -/

/-- The maps the spec admits as `OPCODE_MAP`: injective (R8), and bits 7:6 of each opcode give the operand
count of its mnemonic (R72). -/
def LegalMap (om : OpcodeMap) : Prop :=
  (∀ m m', om m = om m' → m = m') ∧ ∀ m, operandCountOf (om m) = m.operandCount

/-- The default value of `OPCODE_MAP` (R78; from general knowledge, G1: log entry 1). -/
def defaultOpcodeMap : OpcodeMap
  | .HLT => 0b00000001
  | .LDI => 0b10011001
  | .PRN => 0b01000011
  | .MUL => 0b10101010
  | .ADD => 0b10101000
  | .PUSH => 0b01001101
  | .POP => 0b01001100
  | .CALL => 0b01001000
  | .RET => 0b00001001
  | .CMP => 0b10100000
  | .JMP => 0b01010000
  | .JEQ => 0b01010001
  | .JNE => 0b01010010

/-- The second published LS-8 opcode set, which the decision D2 names as another map that satisfies R72
(G2). No instruction's meaning depends on which map is in use (R78). -/
def secondOpcodeMap : OpcodeMap
  | .HLT => 0x01
  | .LDI => 0x82
  | .PRN => 0x47
  | .MUL => 0xA2
  | .ADD => 0xA0
  | .PUSH => 0x45
  | .POP => 0x46
  | .CALL => 0x50
  | .RET => 0x11
  | .CMP => 0xA7
  | .JMP => 0x54
  | .JEQ => 0x55
  | .JNE => 0x56

/-- All mnemonics, in the order of R2. -/
def allMnemonics : List Mnemonic :=
  [.HLT, .LDI, .PRN, .MUL, .ADD, .PUSH, .POP, .CALL, .RET, .CMP, .JMP, .JEQ, .JNE]

/-- `OPCODE_MAP^-1`: the mnemonic whose opcode is this byte, if there is one (R89, R94). The whole byte is
compared (R74). A legal map is injective, so the order of the search does not matter. -/
def mnemonicOf? (om : OpcodeMap) (op : Byte) : Option Mnemonic :=
  allMnemonics.find? fun m => om m == op

/-! ## Decoding -/

/-- Why the decoder rejects the bytes. -/
inductive DecodeError where
  /-- The opcode byte is the opcode of no mnemonic (R79, R89). -/
  | unknownOpcode (op : Byte)
  deriving DecidableEq, Repr

/-- The instruction a mnemonic makes with the two latched operand bytes (R73, R77); a byte beyond the
instruction's length is ignored. -/
def Mnemonic.withOperands (m : Mnemonic) (operandA operandB : Byte) : Instr :=
  match m with
  | .HLT => .hlt
  | .LDI => .ldi operandA operandB
  | .PRN => .prn operandA
  | .MUL => .mul operandA operandB
  | .ADD => .add operandA operandB
  | .PUSH => .push operandA
  | .POP => .pop operandA
  | .CALL => .call operandA
  | .RET => .ret
  | .CMP => .cmp operandA operandB
  | .JMP => .jmp operandA
  | .JEQ => .jeq operandA
  | .JNE => .jne operandA

/-- Decode the three bytes every step fetches (R88, R89): total, and an unknown opcode is rejected by name.
An operand byte that names no register does not stop the decoder: the instruction is recognised, and the
register check is the step's (R90, R164). -/
def decode (om : OpcodeMap) (opcode operandA operandB : Byte) : Except DecodeError Instr :=
  match mnemonicOf? om opcode with
  | some m => .ok (m.withOperands operandA operandB)
  | none => .error (.unknownOpcode opcode)

/-! ## Encoding -/

/-- The operand bytes of an instruction, operandA first (R55, R77). -/
def Instr.operandBytes : Instr → List Byte
  | .hlt => []
  | .ldi r imm => [r, imm]
  | .prn r => [r]
  | .mul a b => [a, b]
  | .add a b => [a, b]
  | .push r => [r]
  | .pop r => [r]
  | .call r => [r]
  | .ret => []
  | .cmp a b => [a, b]
  | .jmp r => [r]
  | .jeq r => [r]
  | .jne r => [r]

/-- The bytes of an instruction in increasing address order: the opcode, then its operands (R55, R70). -/
def encode (om : OpcodeMap) (i : Instr) : List Byte := om i.mnemonic :: i.operandBytes

/-! ## The opcode table's words -/

/-- Byte `k` of an instruction whose bits are `w`, bit 0 the least significant bit of its first byte; every
bit from `nbits` on is 0. -/
def tableByte (nbits w k : Nat) : Byte := BitVec.ofNat 8 (w % 2 ^ nbits / 2 ^ (8 * k))

/-- What the decoder reads, under the default map, from an instruction numbered as the opcode table numbers
it. -/
def decodeTableWord (nbits w : Nat) : Option Instr :=
  match decode defaultOpcodeMap (tableByte nbits w 0) (tableByte nbits w 1) (tableByte nbits w 2) with
  | .ok i => some i
  | .error (.unknownOpcode _) => none

/-! ## Assembler text -/

/-- The name of a register operand in assembler text (R80). -/
def regName (r : Byte) : String := "R" ++ toString r.toNat

/-- An instruction as one line of assembler text: the mnemonic, then its operands separated by commas
(R80); an immediate is written in decimal (R81). -/
def Instr.toAsm : Instr → String
  | .hlt => "HLT"
  | .ldi r imm => "LDI " ++ regName r ++ "," ++ toString imm.toNat
  | .prn r => "PRN " ++ regName r
  | .mul a b => "MUL " ++ regName a ++ "," ++ regName b
  | .add a b => "ADD " ++ regName a ++ "," ++ regName b
  | .push r => "PUSH " ++ regName r
  | .pop r => "POP " ++ regName r
  | .call r => "CALL " ++ regName r
  | .ret => "RET"
  | .cmp a b => "CMP " ++ regName a ++ "," ++ regName b
  | .jmp r => "JMP " ++ regName r
  | .jeq r => "JEQ " ++ regName r
  | .jne r => "JNE " ++ regName r

end Sys2Proof
end

