-- ==== Sys2Proof/Machine/State.lean ====
section
/-! DEFINITION. The state of the LS-8 core as plain data, the reasons a step can stop, and the state after reset. -/

namespace Sys2Proof.Machine

/-- The flags register FL: the three named bits Equal, Greater and Less (R26). Its bits 7:3 are hardwired to
zero (R27) and so are no state; the 8-bit value is `Flags.toByte` (Machine/Flags.lean). Log entry 4. -/
structure Flags where
  /-- Equal (E). -/
  e : Bool
  /-- Greater (G). -/
  g : Bool
  /-- Less (L). -/
  l : Bool
  deriving DecidableEq, Repr

/-- The two synchronous faults of the core, both fatal (R160). Taking one is an effect the spec describes
(`State.takeFault`): it is a next state, not a `Fault` of the model. -/
inductive SyncFault where
  /-- The fetched opcode byte is the opcode of no mnemonic (R161). -/
  | unknownOpcode (op : Byte)
  /-- A register operand byte of a recognised instruction is 8 or more (R163). -/
  | illegalRegister (i : Byte)
  deriving DecidableEq, Repr

/-- Why the core is halted (R29). -/
inductive HaltReason where
  /-- HLT was executed (R140). -/
  | hlt
  /-- The fault of R161, with the opcode byte. -/
  | unknownOpcode (op : Byte)
  /-- The fault of R163, with the operand byte. -/
  | illegalRegister (i : Byte)
  /-- The external `stop` input (R36). -/
  | stopped
  deriving DecidableEq, Repr

/-- The run state (R29). -/
inductive RunState where
  | running
  | halted (reason : HaltReason)
  deriving DecidableEq, Repr

/-- One event on the output port (R33, R34). -/
inductive Event where
  /-- The byte PRN outputs (R103). -/
  | print (v : Byte)
  /-- The report of an unknown opcode (R161). -/
  | unknown (op : Byte)
  deriving DecidableEq, Repr

/-- The bytes of memory that have been written, by the core or by the host, since the run started: address and
byte, in one canonical form, `Memory.wf` (Machine/Ops.lean). An address that is not listed has no written byte
and reads as the free value `Config.mem0` (R52, R53). Log entries 2 and 3. -/
abbrev Memory := List Host.Cell

/-- The whole state: the core's (R20, R24, R26, R29, R33; R32: there is no other) and the external memory it
reads and writes (R50, R51). -/
structure State where
  /-- The general registers x[0..7], R0 to R7 (R20); x[7] is also SP (R21). -/
  regs : Vector Byte 8
  /-- The program counter, the address of the opcode byte of the next instruction (R24). -/
  pc : Byte
  /-- The flags register FL (R26). -/
  fl : Flags
  /-- Running, or halted with a reason (R29). -/
  run : RunState
  /-- The output events since reset, the oldest first (R33). -/
  out : List Event
  /-- The external memory, all 256 bytes of it (R51). -/
  mem : Memory
  deriving DecidableEq, Repr

/-- The reasons for which a step stops outside the spec: there is none. Every byte decodes to an instruction or to
an unknown opcode, and what the core does in either case, the two fatal faults included, is a next state
(R94, R160). The type has no constructor, so no meaning can answer with a fault. Log entry 5. -/
inductive Fault where
  deriving DecidableEq, Repr

/-- The reasons for which an instruction has no meaning in the model. -/
inductive Refusal where
  /-- Raised by an arm of `exec` for an instruction that is not modelled yet (safe: nothing is said of it). No
  arm raises it now. -/
  | notModelled (mnemonic : String)
  deriving DecidableEq, Repr

/-- The machine right after reset (R39): R0 to R6 are 0x00, SP is 0xF4, pc and FL are 0, the core runs, no
event has been emitted. Reset does not touch memory (R182); here nobody has written it yet, so all of it is
the launch image `MEM0` (R52). The reset of a machine that has run is `State.resetInput` (Machine/Ops.lean). -/
def State.reset : State where
  regs := #v[0x00, 0x00, 0x00, 0x00, 0x00, 0x00, 0x00, 0xF4]
  pc := 0x00
  fl := { e := false, g := false, l := false }
  run := .running
  out := []
  mem := []

end Sys2Proof.Machine
end

