-- ==== Sys2Proof/Machine/Ops.lean ====
section
/-! DEFINITION. The named operations over memory, registers, the pc, the run state and the output port, the stack
primitives, and taking a fault. -/

namespace Sys2Proof.Machine

/-! ## Memory -/

/-- The byte written at an address, if one was. -/
def Memory.lookup : Memory → Nat → Option Byte
  | [], _ => none
  | (k, v) :: m, a => if k = a then some v else Memory.lookup m a

/-- The memory with byte `v` written at address `a`; the addresses stay strictly rising. -/
def Memory.store : Memory → Nat → Byte → Memory
  | [], a, v => [(a, v)]
  | (k, w) :: m, a, v =>
    if a < k then (a, v) :: (k, w) :: m
    else if a = k then (a, v) :: m
    else (k, w) :: Memory.store m a v

/-- The addresses are strictly rising, and the first is at least `lo`. -/
def Memory.risingFrom : Nat → Memory → Bool
  | _, [] => true
  | lo, (k, _) :: m => decide (lo ≤ k) && Memory.risingFrom (k + 1) m

/-- The canonical form: the addresses are strictly rising and lie in the 256-byte address space (R51). An
unlisted address has no written byte, so no entry equals what one holds. -/
def Memory.wf (m : Memory) : Bool := m.risingFrom 0 && m.all fun c => decide (c.1 < 256)

/-- `read(address) -> byte` (R53): the byte most recently written there, or the byte of `MEM0`. -/
def Memory.read (m : Memory) (a : Byte) : Byte := (m.lookup a.toNat).getD (Config.mem0 a)

/-- `MemRead(a, 1)` (R13, R53). -/
def State.memRead (s : State) (a : Byte) : Byte := s.mem.read a

/-- `MemWrite(a, 1, v)` (R13, R53). -/
def State.memWrite (s : State) (a v : Byte) : State := { s with mem := s.mem.store a.toNat v }

/-! ## Registers, pc, run state, output port -/

/-- `x[i]` (R12). -/
def State.reg (s : State) (i : RegIdx) : Byte := s.regs.get i

/-- `x[i] <- v` (R12). -/
def State.setReg (s : State) (i : RegIdx) (v : Byte) : State := { s with regs := s.regs.set i v }

/-- The index of the stack pointer: SP is R7 (R21). -/
def spIdx : RegIdx := 7

/-- `sp` (R12). -/
def State.sp (s : State) : Byte := s.reg spIdx

/-- `sp <- v` (R12). -/
def State.setSp (s : State) (v : Byte) : State := s.setReg spIdx v

/-- `pc <- target` (R12). -/
def State.setPc (s : State) (target : Byte) : State := { s with pc := target }

/-- The automatic advance past an instruction of `n` operand bytes: `pc <- (pc + 1 + n) mod 256` (R93). -/
def State.advance (s : State) (n : Nat) : State := s.setPc (s.pc + 1 + BitVec.ofNat 8 n)

/-- `Output(kind, v)`: append an event to the output port (R14, R33). -/
def State.output (s : State) (e : Event) : State := { s with out := s.out ++ [e] }

/-- `halt(reason)`: `run <- Halted(reason)` (R14). -/
def State.halt (s : State) (reason : HaltReason) : State := { s with run := .halted reason }

/-! ## Taking a fault -/

/-- The halt reason that records a fault (R160). -/
def SyncFault.reason : SyncFault → HaltReason
  | .unknownOpcode op => .unknownOpcode op
  | .illegalRegister i => .illegalRegister i

/-- The event that reports a fault on the output port, if it has one (R160). -/
def SyncFault.report : SyncFault → List Event
  | .unknownOpcode op => [.unknown op]
  | .illegalRegister _ => []

/-- Take a fault (R160 to R163, R166): the report, then `halt`; no state is saved, control goes nowhere, and
registers, FL, pc and memory keep their values. There is no return from a fault: the only way out of a
halted state is the reset input (R167). -/
def State.takeFault (s : State) (f : SyncFault) : State :=
  { s with out := s.out ++ f.report, run := .halted f.reason }

/-! ## The stack primitives -/

/-- The address StackPush writes, the new SP (R58, R130). -/
def State.pushAddr (s : State) : Byte := s.sp - 1

/-- `StackPush(v)`: decrement SP, then write (R130). -/
def State.stackPush (s : State) (v : Byte) : State := (s.setSp s.pushAddr).memWrite s.pushAddr v

/-- `StackPop()`: read, then increment SP (R130). -/
def State.stackPop (s : State) : Byte × State := (s.memRead s.sp, s.setSp (s.sp + 1))

/-! ## Fetch -/

/-- The bytes a step latches (R31, R88); no part of the state. -/
structure Latches where
  opcode : Byte
  operandA : Byte
  operandB : Byte
  deriving DecidableEq, Repr

/-- The fetch: three bytes, always, whatever the instruction, with wrapping addresses (R88). -/
def State.fetch (s : State) : Latches where
  opcode := s.memRead s.pc
  operandA := s.memRead (s.pc + 1)
  operandB := s.memRead (s.pc + 2)

/-! ## What the host does between steps -/

/-- The `reset` input (R181), from any run state: every piece of core state takes its reset value, and memory
keeps what it holds (R182). -/
def State.resetInput (s : State) : State := { State.reset with mem := s.mem }

/-- The `stop` input (R36). -/
def State.stopInput (s : State) : State :=
  match s.run with
  | .running => s.halt .stopped
  | .halted _ => s

/-- The host's `poke(address, value)`, one byte of memory (R38). -/
def State.poke (s : State) (a v : Byte) : State := s.memWrite a v

end Sys2Proof.Machine
end

