-- ==== Sys2Proof/Machine/Flags.lean ====
section
/-! DEFINITION. The flags register: its 8-bit value, setting and clearing its bits, and the comparison that computes it. -/

namespace Sys2Proof.Machine

/-- The value of FL as a byte, 0b00000LGE: E is bit 0, G bit 1, L bit 2, bits 7:3 are zero (R27). This is what
the host reads (R38). -/
def Flags.toByte (f : Flags) : Byte :=
  (if f.e then 1 else 0) ||| (if f.g then 2 else 0) ||| (if f.l then 4 else 0)

/-- The flags a byte stands for; its bits 7:3 are ignored (R27). -/
def Flags.ofByte (b : Byte) : Flags where
  e := b.getLsbD 0
  g := b.getLsbD 1
  l := b.getLsbD 2

/-- The names of the flag bits (R26). -/
inductive FlagBit where
  | E | G | L
  deriving DecidableEq, Repr

/-- The bit number of a flag in FL (R27). -/
def FlagBit.number : FlagBit → Nat
  | .E => 0
  | .G => 1
  | .L => 2

/-- Read one flag bit. -/
def Flags.get (f : Flags) : FlagBit → Bool
  | .E => f.e
  | .G => f.g
  | .L => f.l

/-- Write one flag bit, without disturbing the others (R26). -/
def Flags.put (f : Flags) (b : FlagBit) (v : Bool) : Flags :=
  match b with
  | .E => { f with e := v }
  | .G => { f with g := v }
  | .L => { f with l := v }

/-- What COMPARE computes from two register VALUES, as unsigned integers: Equal, Less and Greater (R111, R120,
R121). -/
def compareFlags (va vb : Byte) : Flags where
  e := decide (va.toNat = vb.toNat)
  l := decide (va.toNat < vb.toNat)
  g := decide (va.toNat > vb.toNat)

/-- Write FL.E, FL.L and FL.G, in this order (R120). -/
def State.setFlags (s : State) (f : Flags) : State :=
  { s with fl := ((s.fl.put .E f.e).put .L f.l).put .G f.g }

end Sys2Proof.Machine
end

