-- ==== Sys2Proof/Machine/Operands.lean ====
section
/-! DEFINITION. Register operands: reading an operand byte as a register index, and the register check of a step. -/

namespace Sys2Proof.Machine

/-- The register an operand byte names: the whole byte is the index, 0 to 7 (R75). -/
def regIndex? (b : Byte) : Option RegIdx := if h : b.toNat < 8 then some ⟨b.toNat, h⟩ else none

/-- The register check of one operand (R90): go on with the register the byte names, or take the fault
IllegalRegister with its value, before the instruction has any effect (R23, R163). -/
def checkReg (b : Byte) (s : State) (go : RegIdx → Host.Outcome State Fault Refusal) :
    Host.Outcome State Fault Refusal :=
  match regIndex? b with
  | some r => go r
  | none => .next (s.takeFault (.illegalRegister b))

end Sys2Proof.Machine
end

