-- ==== Sys2Proof/Machine/Alu.lean ====
section
/-! DEFINITION. The ALU and its instructions: ADD, MUL, CMP (42_alu.md). -/

namespace Sys2Proof.Machine

/-- The tags that select an ALU operation (R110). -/
inductive AluOp where
  | multiply | add | compare
  deriving DecidableEq, Repr

/-- What the ALU produces: a result byte for the destination register, or new flags (R110). -/
inductive AluResult where
  | value (v : Byte)
  | flags (f : Flags)
  deriving DecidableEq, Repr

/-- The ALU (R110, R111): a pure operation on two register values, exact on the unsigned integers and then cut
to the low 8 bits, with no carry or overflow flag. -/
def alu (op : AluOp) (va vb : Byte) : AluResult :=
  match op with
  | .multiply => .value (BitVec.ofNat 8 (va.toNat * vb.toNat))
  | .add => .value (BitVec.ofNat 8 (va.toNat + vb.toNat))
  | .compare => .flags (compareFlags va vb)

/-- The handler's write of an ALU result: a byte to the destination register, new flags to FL (R110). -/
def State.writeAlu (s : State) (dst : RegIdx) : AluResult → State
  | .value v => s.setReg dst v
  | .flags f => s.setFlags f

/-- The shape of the three ALU instructions (format F2RR): both registers are checked, operandA first (R90),
both values are read before the write (R92), and the pc advances. -/
def execAlu (op : AluOp) (n : Nat) (a b : Byte) (s : State) : Host.Outcome State Fault Refusal :=
  checkReg a s fun ia => checkReg b s fun ib =>
    .next ((s.writeAlu ia (alu op (s.reg ia) (s.reg ib))).advance n)

/-- MUL a, b (R115): `x[a] <- (x[a] * x[b]) mod 256`; no flag is written. -/
def execMul (a b : Byte) (s : State) : Host.Outcome State Fault Refusal :=
  execAlu .multiply Mnemonic.MUL.operandCount a b s

/-- ADD a, b (R112): `x[a] <- (x[a] + x[b]) mod 256`; no flag is written. -/
def execAdd (a b : Byte) (s : State) : Host.Outcome State Fault Refusal :=
  execAlu .add Mnemonic.ADD.operandCount a b s

/-- CMP a, b (R120, R121): compare the values of two registers as unsigned integers and write E, G and L. -/
def execCmp (a b : Byte) (s : State) : Host.Outcome State Fault Refusal :=
  execAlu .compare Mnemonic.CMP.operandCount a b s

end Sys2Proof.Machine
end

