-- ==== Sys2Proof/Machine/Control.lean ====
section
/-! DEFINITION. Control transfer and halt: HLT, CALL, RET, JMP, JEQ, JNE (44_control.md). -/

namespace Sys2Proof.Machine

/-- HLT (R140): halt, and the automatic advance is made all the same (R93). -/
def execHlt (s : State) : Host.Outcome State Fault Refusal :=
  .next ((s.halt .hlt).advance Mnemonic.HLT.operandCount)

/-- CALL r (R143): push the return address pc + 2, then jump to the value x[r] had before the push (R92). -/
def execCall (r : Byte) (s : State) : Host.Outcome State Fault Refusal :=
  checkReg r s fun i => .next ((s.stackPush (s.pc + 2)).setPc (s.reg i))

/-- RET (R146): pop the return address into the pc; no automatic advance (R93). -/
def execRet (s : State) : Host.Outcome State Fault Refusal :=
  .next (s.stackPop.2.setPc s.stackPop.1)

/-- A jump on a condition: the target if taken, the automatic advance if not (R93). -/
def State.jumpIf (s : State) (taken : Bool) (target : Byte) (n : Nat) : State :=
  if taken then s.setPc target else s.advance n

/-- JMP r (R148): always taken. -/
def execJmp (r : Byte) (s : State) : Host.Outcome State Fault Refusal :=
  checkReg r s fun i => .next (s.setPc (s.reg i))

/-- JEQ r (R150): taken if FL.E is set; the register is checked whether or not the jump is taken (R90). -/
def execJeq (r : Byte) (s : State) : Host.Outcome State Fault Refusal :=
  checkReg r s fun i => .next (s.jumpIf s.fl.e (s.reg i) Mnemonic.JEQ.operandCount)

/-- JNE r (R153): taken if FL.E is clear; the register is checked whether or not the jump is taken (R90). -/
def execJne (r : Byte) (s : State) : Host.Outcome State Fault Refusal :=
  checkReg r s fun i => .next (s.jumpIf (!s.fl.e) (s.reg i) Mnemonic.JNE.operandCount)

end Sys2Proof.Machine
end

