-- ==== Sys2Proof/Machine/Data.lean ====
section
/-! DEFINITION. Data movement and output: LDI, PRN (41_data.md). -/

namespace Sys2Proof.Machine

/-- LDI r, imm (R100): `x[r] <- imm`, then the automatic advance. -/
def execLdi (r imm : Byte) (s : State) : Host.Outcome State Fault Refusal :=
  checkReg r s fun i => .next ((s.setReg i imm).advance Mnemonic.LDI.operandCount)

/-- PRN r (R103): output the unsigned byte x[r], then the automatic advance. -/
def execPrn (r : Byte) (s : State) : Host.Outcome State Fault Refusal :=
  checkReg r s fun i => .next ((s.output (.print (s.reg i))).advance Mnemonic.PRN.operandCount)

end Sys2Proof.Machine
end

