-- ==== Sys2Proof/Machine/Stack.lean ====
section
/-! DEFINITION. The stack instructions: PUSH, POP (43_stack.md). -/

namespace Sys2Proof.Machine

/-- PUSH r (R132): push the value x[r] had before the instruction, so that PUSH R7 pushes the SP from before the
decrement (R92). -/
def execPush (r : Byte) (s : State) : Host.Outcome State Fault Refusal :=
  checkReg r s fun i => .next ((s.stackPush (s.reg i)).advance Mnemonic.PUSH.operandCount)

/-- POP r (R135): pop, then write the popped byte to x[r]; the destination write is the last, so that POP R7
leaves R7 equal to the popped byte (R136). -/
def execPop (r : Byte) (s : State) : Host.Outcome State Fault Refusal :=
  checkReg r s fun i => .next ((s.stackPop.2.setReg i s.stackPop.1).advance Mnemonic.POP.operandCount)

end Sys2Proof.Machine
end

