-- ==== Sys2Proof/Machine/Step.lean ====
section
/-! DEFINITION. The step of the core (R88 to R95): one tick. -/

namespace Sys2Proof.Machine

/-- One tick (R35, R94) under an opcode map: a halted core does nothing; a running one fetches, decodes, and
either takes the unknown-opcode fault or runs the instruction. -/
def stepWith (om : OpcodeMap) (s : State) : Host.Outcome State Fault Refusal :=
  match s.run with
  | .halted _ => .next s
  | .running =>
    match decode om s.fetch.opcode s.fetch.operandA s.fetch.operandB with
    | .ok i => exec i s
    | .error (.unknownOpcode op) => .next (s.takeFault (.unknownOpcode op))

/-- The step of the machine with the default `OPCODE_MAP` (R78). -/
def step (s : State) : Host.Outcome State Fault Refusal := stepWith defaultOpcodeMap s

/-- The state in which the next step fetches the instruction with these bits (numbered as the opcode table
numbers them): its three bytes stand at pc, pc + 1 and pc + 2, and the core runs, which the fetch needs
(R35). Log entry 8. -/
def State.withFetchWord (s : State) (nbits w : Nat) : State :=
  { (((s.memWrite s.pc (tableByte nbits w 0)).memWrite (s.pc + 1) (tableByte nbits w 1)).memWrite
      (s.pc + 2) (tableByte nbits w 2)) with run := .running }

end Sys2Proof.Machine
end

