-- ==== Sys2Proof/Machine/Ports.lean ====
section
/-! DEFINITION. The block interface at transaction level (R34): the inputs the host drives between steps, the memory
transactions of a step, the output port and the host's view. -/

namespace Sys2Proof.Machine

/-! ## Inputs -/

/-- What the host can do to the block between steps (R34 to R38). It does not write x[0..7], pc or FL (R38). -/
inductive HostInput where
  /-- `tick`: request one step (R35). -/
  | tick
  /-- `reset`: reset the core (R181). -/
  | reset
  /-- `stop`: request halt between steps (R36). -/
  | stop
  /-- `poke(address, value)`: write one byte of memory (R38). -/
  | poke (addr value : Byte)
  deriving DecidableEq, Repr

/-- The effect of one input, under an opcode map. -/
def State.input (om : OpcodeMap) (s : State) : HostInput → Host.Outcome State Fault Refusal
  | .tick => stepWith om s
  | .reset => .next s.resetInput
  | .stop => .next s.stopInput
  | .poke a v => .next (s.poke a v)

/-- The effect of a sequence of inputs, the first first. -/
def State.inputs (om : OpcodeMap) : List HostInput → State → Host.Outcome State Fault Refusal
  | [], s => .next s
  | i :: is, s =>
    match s.input om i with
    | .next t => State.inputs om is t
    | .fault r => .fault r
    | .refused r => .refused r

/-- A run begins with the core in its reset state and memory holding the launch image, whatever it is: what the
loader wrote, over what the memory held elsewhere (R52, R184). -/
def State.launch (loaded : Memory) : State := { State.reset with mem := loaded }

/-! ## Memory transactions -/

/-- One transaction on the memory ports (R34, R57): always one byte. -/
inductive MemAccess where
  /-- `mem_rd_addr`. -/
  | read (addr : Byte)
  /-- `mem_wr_en` with `mem_wr_addr` and `mem_wr_data`. -/
  | write (addr value : Byte)
  deriving DecidableEq, Repr

/-- The three fetch reads, in order (R58, R88). -/
def State.fetchAccesses (s : State) : List MemAccess :=
  [.read s.pc, .read (s.pc + 1), .read (s.pc + 2)]

/-- The access of an instruction that pushes the value of a register operand, or nothing if the operand takes
the fault (R58). -/
def State.pushAccess (s : State) (r : Byte) (value : RegIdx → Byte) : List MemAccess :=
  match regIndex? r with
  | some i => [.write s.pushAddr (value i)]
  | none => []

/-- The access of an instruction that pops into a register operand, or nothing if the operand takes the fault
(R58). -/
def State.popAccess (s : State) (r : Byte) : List MemAccess :=
  match regIndex? r with
  | some _ => [.read s.sp]
  | none => []

/-- The memory accesses of an instruction's effect (R58). -/
def instrAccesses (i : Instr) (s : State) : List MemAccess :=
  match i with
  | .hlt => []
  | .ldi _ _ => []
  | .prn _ => []
  | .mul _ _ => []
  | .add _ _ => []
  | .push r => s.pushAccess r s.reg
  | .pop r => s.popAccess r
  | .call r => s.pushAccess r fun _ => s.pc + 2
  | .ret => [.read s.sp]
  | .cmp _ _ => []
  | .jmp _ => []
  | .jeq _ => []
  | .jne _ => []

/-- The memory accesses of one tick, in the order in which they are performed (R58, R61). -/
def State.stepAccesses (om : OpcodeMap) (s : State) : List MemAccess :=
  match s.run with
  | .halted _ => []
  | .running =>
    match decode om s.fetch.opcode s.fetch.operandA s.fetch.operandB with
    | .ok i => s.fetchAccesses ++ instrAccesses i s
    | .error (.unknownOpcode _) => s.fetchAccesses

/-- The memory after a list of transactions (R57: a read changes nothing, a write only the byte it names). -/
def Memory.perform : List MemAccess → Memory → Memory
  | [], m => m
  | .read _ :: l, m => Memory.perform l m
  | .write a v :: l, m => Memory.perform l (m.store a.toNat v)

/-! ## Outputs -/

/-- `out_kind`: 0 for Print, 1 for Unknown (R34). -/
def Event.outKind : Event → BitVec 1
  | .print _ => 0
  | .unknown _ => 1

/-- `out_data` (R34). -/
def Event.outData : Event → Byte
  | .print v => v
  | .unknown op => op

/-- How a sink that prints text renders an event: a Print as the unsigned decimal number (R33); the spec states no
form for the report of an unknown opcode. The sink itself is outside the core. -/
def Event.rendered? : Event → Option String
  | .print v => some (toString v.toNat)
  | .unknown _ => none

/-- `halted` (R34). -/
def State.isHalted (s : State) : Bool :=
  match s.run with
  | .running => false
  | .halted _ => true

/-- `halt_reason` (R34). -/
def State.haltReason? (s : State) : Option HaltReason :=
  match s.run with
  | .running => none
  | .halted r => some r

/-- The host's view of the registers between steps (R34, R38): x[0..7], pc and FL, 8 bits each. -/
structure HostView where
  x : Vector Byte 8
  pc : Byte
  fl : Byte
  deriving DecidableEq, Repr

/-- What the host reads between steps (R38); it reads memory with `State.memRead`. -/
def State.hostView (s : State) : HostView where
  x := s.regs
  pc := s.pc
  fl := s.fl.toByte

end Sys2Proof.Machine
end

