-- ==== Sys2Proof/Safety.lean ====
section
/-! DEFINITION. The words the statements use: what two states have in common, the legal states of FL, the invariant of
the machine, a fault-free state, and who writes what. -/

namespace Sys2Proof.Machine

/-! ## What an instruction leaves unchanged -/

/-- Every register but those listed holds the same value. -/
def SameRegsBut (written : List RegIdx) (s t : State) : Prop := ∀ i, i ∉ written → t.reg i = s.reg i

/-- Every register holds the same value. -/
def SameRegs (s t : State) : Prop := ∀ i, t.reg i = s.reg i

/-- Every byte of memory reads as before. -/
def SameMem (s t : State) : Prop := ∀ a, t.memRead a = s.memRead a

/-- Every byte of memory but the one at this address reads as before. -/
def SameMemBut (stored : Byte) (s t : State) : Prop := ∀ a, a ≠ stored → t.memRead a = s.memRead a

/-! ## Invariants -/

/-- FL is 0 or has exactly one bit set (R122). -/
def Flags.Legal (f : Flags) : Prop := f.toByte = 0 ∨ f.toByte = 1 ∨ f.toByte = 2 ∨ f.toByte = 4

/-- The invariant of the machine: memory is in canonical form and FL is legal. -/
def State.Inv (s : State) : Prop := s.mem.wf = true ∧ s.fl.Legal

/-- The core has not stopped on a fault. -/
def State.FaultFree (s : State) : Prop :=
  ∀ f : SyncFault, s.run ≠ .halted f.reason

/-! ## Who reads and writes what -/

/-- The registers an instruction writes besides pc and FL, R22's column "writes": the register its operand names, and SP
for the stack instructions. -/
def instrWrites (i : Instr) : List RegIdx :=
  let named (r : Byte) : List RegIdx := (regIndex? r).toList
  match i with
  | .hlt => []
  | .ldi r _ => named r
  | .prn _ => []
  | .mul a _ => named a
  | .add a _ => named a
  | .push _ => [spIdx]
  | .pop r => spIdx :: named r
  | .call _ => [spIdx]
  | .ret => [spIdx]
  | .cmp _ _ => []
  | .jmp _ => []
  | .jeq _ => []
  | .jne _ => []

/-- Whether the handler of an instruction writes pc in this state (R93, R94): CALL, RET and JMP always, JEQ and
JNE when the jump is taken. -/
def instrTakes (i : Instr) (s : State) : Bool :=
  match i with
  | .hlt => false
  | .ldi _ _ => false
  | .prn _ => false
  | .mul _ _ => false
  | .add _ _ => false
  | .push _ => false
  | .pop _ => false
  | .call _ => true
  | .ret => true
  | .cmp _ _ => false
  | .jmp _ => true
  | .jeq _ => s.fl.e
  | .jne _ => !s.fl.e

/-- The addresses the reads of a list of transactions present. -/
def readAddrs (l : List MemAccess) : List Byte :=
  l.filterMap fun
    | .read a => some a
    | .write _ _ => none

end Sys2Proof.Machine
end

