-- ==== Sys2Proof/Certificates/Slice0/Obligations.lean ====
section
/-! DEFINITION. The statements for the provers, from the numbered rules of the spec. Where a statement rests on a decision
of the spec (D<n>) or on a choice of the model (log entry <n>), its docstring says so. -/

open Sys2Proof Sys2Proof.Machine

/-! ## Reset and the host's inputs -/

/-- The reset input gives every piece of core state its reset value from any state and leaves memory alone; the state
right after reset has the same core state and, since nothing has been written, reads as `MEM0` everywhere.
(R39, R181, R182: decision D14. `MEM0` is a free value, log entry 2.) -/
def Obligations.ResetGivesResetValuesAndKeepsMemory : Prop :=
  (∀ s : State,
    (∀ i : RegIdx, i.val < 7 → s.resetInput.reg i = 0x00) ∧ s.resetInput.reg 7 = 0xF4 ∧
    s.resetInput.pc = 0x00 ∧ s.resetInput.fl.toByte = 0x00 ∧ s.resetInput.run = .running ∧
    s.resetInput.out = [] ∧ SameMem s s.resetInput) ∧
  (∀ i : RegIdx, i.val < 7 → State.reset.reg i = 0x00) ∧ State.reset.reg 7 = 0xF4 ∧
  State.reset.pc = 0x00 ∧ State.reset.fl.toByte = 0x00 ∧ State.reset.run = .running ∧ State.reset.out = [] ∧
  ∀ a, State.reset.memRead a = Config.mem0 a

/-- The stop input halts a running core with reason Stopped and changes nothing else; a halted core it leaves
alone. (R36: decision D18.) -/
def Obligations.StopInputHaltsOnlyARunningCore : Prop :=
  ∀ (om : OpcodeMap) (s : State),
    (s.run = .running → s.input om .stop = .next { s with run := .halted .stopped }) ∧
    (∀ r, s.run = .halted r → s.input om .stop = .next s)

/-- Halted is terminal: whatever the host does but reset, nothing of the core changes, and without a poke nothing at
all; the reset input makes the core run again. (R30.) -/
def Obligations.HaltedIsTerminalUntilReset : Prop :=
  ∀ (om : OpcodeMap) (s : State) (r : HaltReason), s.run = .halted r →
    (∀ l : List HostInput, HostInput.reset ∉ l →
      ∃ t, s.inputs om l = .next t ∧ t.run = s.run ∧ SameRegs s t ∧ t.pc = s.pc ∧ t.fl = s.fl ∧ t.out = s.out ∧
        ((∀ a v, HostInput.poke a v ∉ l) → t = s)) ∧
    ∃ t, s.input om .reset = .next t ∧ t.run = .running

/-! ## Data movement and output -/

/-- LDI r, imm: the register is loaded, the pc goes past three bytes, nothing else changes; a register byte of 8 or
more halts with IllegalRegister before any effect. (R100.) -/
def Obligations.LdiLoadsTheImmediate : Prop :=
  ∀ (om : OpcodeMap) (r imm : Byte) (s : State),
    encode om (.ldi r imm) = [om .LDI, r, imm] ∧ defaultOpcodeMap .LDI = 0x99 ∧
    (∀ hr : r.toNat < 8, ∃ t, exec (.ldi r imm) s = .next t ∧
      t.reg ⟨r.toNat, hr⟩ = imm ∧ SameRegsBut [⟨r.toNat, hr⟩] s t ∧
      t.pc.toNat = (s.pc.toNat + 3) % 256 ∧ t.fl = s.fl ∧ t.run = s.run ∧ t.out = s.out ∧ SameMem s t) ∧
    (8 ≤ r.toNat → exec (.ldi r imm) s = .next { s with run := .halted (.illegalRegister r) })

/-- PRN r: the unsigned byte of the register is output, the pc goes past two bytes, nothing else changes; a register
byte of 8 or more halts with IllegalRegister and outputs nothing. (R103.) -/
def Obligations.PrnOutputsTheRegister : Prop :=
  ∀ (om : OpcodeMap) (r : Byte) (s : State),
    encode om (.prn r) = [om .PRN, r] ∧ defaultOpcodeMap .PRN = 0x43 ∧
    (∀ hr : r.toNat < 8, ∃ t, exec (.prn r) s = .next t ∧
      t.out = s.out ++ [.print (s.reg ⟨r.toNat, hr⟩)] ∧ SameRegs s t ∧
      t.pc.toNat = (s.pc.toNat + 2) % 256 ∧ t.fl = s.fl ∧ t.run = s.run ∧ SameMem s t) ∧
    (8 ≤ r.toNat → exec (.prn r) s = .next { s with run := .halted (.illegalRegister r) })

/-! ## The ALU -/

/-- The ALU's laws: the exact sum or product cut to its low 8 bits, the same whether the bytes are read as unsigned
or as two's-complement; COMPARE orders the unsigned values; there is no other operation. (R110, R111; that the
order is unsigned is the spec's own inference.) -/
def Obligations.AluComputesExactlyAndKeepsTheLowByte : Prop :=
  ∀ va vb : Byte,
    (∃ v, alu .add va vb = .value v ∧ v.toNat = (va.toNat + vb.toNat) % 256 ∧ v = BitVec.ofInt 8 (va.toInt + vb.toInt)) ∧
    (∃ v, alu .multiply va vb = .value v ∧ v.toNat = (va.toNat * vb.toNat) % 256 ∧
      v = BitVec.ofInt 8 (va.toInt * vb.toInt)) ∧
    (∃ f, alu .compare va vb = .flags f ∧ (f.e = true ↔ va.toNat = vb.toNat) ∧ (f.l = true ↔ va.toNat < vb.toNat) ∧
      (f.g = true ↔ va.toNat > vb.toNat)) ∧
    ∀ op : AluOp, op = .multiply ∨ op = .add ∨ op = .compare

/-- ADD a, b: the sum mod 256 of the old values goes to the first register, no flag is written, the pc goes past three
bytes; the first register byte of 8 or more halts with IllegalRegister. (R112.) -/
def Obligations.AddWritesTheSumModulo256 : Prop :=
  ∀ (om : OpcodeMap) (a b : Byte) (s : State),
    encode om (.add a b) = [om .ADD, a, b] ∧ defaultOpcodeMap .ADD = 0xA8 ∧
    (∀ (ha : a.toNat < 8) (hb : b.toNat < 8), ∃ t, exec (.add a b) s = .next t ∧
      (t.reg ⟨a.toNat, ha⟩).toNat = ((s.reg ⟨a.toNat, ha⟩).toNat + (s.reg ⟨b.toNat, hb⟩).toNat) % 256 ∧
      SameRegsBut [⟨a.toNat, ha⟩] s t ∧
      t.pc.toNat = (s.pc.toNat + 3) % 256 ∧ t.fl = s.fl ∧ t.run = s.run ∧ t.out = s.out ∧ SameMem s t) ∧
    (8 ≤ a.toNat → exec (.add a b) s = .next { s with run := .halted (.illegalRegister a) }) ∧
    (a.toNat < 8 → 8 ≤ b.toNat → exec (.add a b) s = .next { s with run := .halted (.illegalRegister b) })

/-- MUL a, b: the product mod 256 of the old values goes to the first register, no flag is written, the pc goes past
three bytes; the first register byte of 8 or more halts with IllegalRegister. (R115.) -/
def Obligations.MulWritesTheProductModulo256 : Prop :=
  ∀ (om : OpcodeMap) (a b : Byte) (s : State),
    encode om (.mul a b) = [om .MUL, a, b] ∧ defaultOpcodeMap .MUL = 0xAA ∧
    (∀ (ha : a.toNat < 8) (hb : b.toNat < 8), ∃ t, exec (.mul a b) s = .next t ∧
      (t.reg ⟨a.toNat, ha⟩).toNat = ((s.reg ⟨a.toNat, ha⟩).toNat * (s.reg ⟨b.toNat, hb⟩).toNat) % 256 ∧
      SameRegsBut [⟨a.toNat, ha⟩] s t ∧
      t.pc.toNat = (s.pc.toNat + 3) % 256 ∧ t.fl = s.fl ∧ t.run = s.run ∧ t.out = s.out ∧ SameMem s t) ∧
    (8 ≤ a.toNat → exec (.mul a b) s = .next { s with run := .halted (.illegalRegister a) }) ∧
    (a.toNat < 8 → 8 ≤ b.toNat → exec (.mul a b) s = .next { s with run := .halted (.illegalRegister b) })

/-- CMP a, b: E, L and G are set each iff the first value equals, is less than, is greater than the second, so that FL is
0x01, 0x04 or 0x02; no register is written, the pc goes past three bytes; the first register byte of 8 or more halts with
IllegalRegister. (R120; the bit positions are decision D3, log entry 4.) -/
def Obligations.CmpSetsExactlyOneFlag : Prop :=
  ∀ (om : OpcodeMap) (a b : Byte) (s : State),
    encode om (.cmp a b) = [om .CMP, a, b] ∧ defaultOpcodeMap .CMP = 0xA0 ∧
    (∀ (ha : a.toNat < 8) (hb : b.toNat < 8), ∃ t, exec (.cmp a b) s = .next t ∧
      t.fl.toByte = (if (s.reg ⟨a.toNat, ha⟩).toNat = (s.reg ⟨b.toNat, hb⟩).toNat then 0x01
        else if (s.reg ⟨a.toNat, ha⟩).toNat < (s.reg ⟨b.toNat, hb⟩).toNat then 0x04 else 0x02) ∧
      (t.fl.e = true ↔ (s.reg ⟨a.toNat, ha⟩).toNat = (s.reg ⟨b.toNat, hb⟩).toNat) ∧
      (t.fl.l = true ↔ (s.reg ⟨a.toNat, ha⟩).toNat < (s.reg ⟨b.toNat, hb⟩).toNat) ∧
      (t.fl.g = true ↔ (s.reg ⟨a.toNat, ha⟩).toNat > (s.reg ⟨b.toNat, hb⟩).toNat) ∧
      SameRegs s t ∧
      t.pc.toNat = (s.pc.toNat + 3) % 256 ∧ t.run = s.run ∧ t.out = s.out ∧ SameMem s t) ∧
    (8 ≤ a.toNat → exec (.cmp a b) s = .next { s with run := .halted (.illegalRegister a) }) ∧
    (a.toNat < 8 → 8 ≤ b.toNat → exec (.cmp a b) s = .next { s with run := .halted (.illegalRegister b) })

/-- CMP compares the values in the registers, not the register numbers: two comparisons, of any registers in any
states, whose values are the same leave the same FL, whatever the indices are and whatever FL was. (R121.) -/
def Obligations.CmpComparesValuesNotIndices : Prop :=
  ∀ (a b c d : Byte) (ha : a.toNat < 8) (hb : b.toNat < 8) (hc : c.toNat < 8) (hd : d.toNat < 8) (s s' : State),
    s.reg ⟨a.toNat, ha⟩ = s'.reg ⟨c.toNat, hc⟩ → s.reg ⟨b.toNat, hb⟩ = s'.reg ⟨d.toNat, hd⟩ →
    ∃ t t', exec (.cmp a b) s = .next t ∧ exec (.cmp c d) s' = .next t' ∧ t.fl = t'.fl ∧
      (t.fl.e = true ↔ s.reg ⟨a.toNat, ha⟩ = s.reg ⟨b.toNat, hb⟩)

/-! ## The flags register -/

/-- Setting a flag ORs 1 shifted by its bit number into FL, clearing one ANDs that out, and neither disturbs the other
flags. (R26.) -/
def Obligations.FlagBitsAreIndependentlySetAndCleared : Prop :=
  ∀ (f : Flags) (b : FlagBit),
    (f.put b true).toByte = f.toByte ||| ((1 : Byte) <<< b.number) ∧
    (f.put b false).toByte = f.toByte &&& ~~~((1 : Byte) <<< b.number) ∧
    (∀ v, (f.put b v).get b = v) ∧ ∀ v c, c ≠ b → (f.put b v).get c = f.get c

/-- FL is 0b00000LGE: E is bit 0, G bit 1, L bit 2, bits 7:3 read as zero, and bits 7:3 of a byte written as a
whole are ignored. (R27: decision D3, log entry 4.) -/
def Obligations.FlagsByteHasLayoutLGE : Prop :=
  (∀ f : Flags, f.toByte.getLsbD 0 = f.e ∧ f.toByte.getLsbD 1 = f.g ∧ f.toByte.getLsbD 2 = f.l ∧
    ∀ k, 3 ≤ k → f.toByte.getLsbD k = false) ∧
  ∀ b : Byte, (Flags.ofByte b).toByte = b &&& 0x07

/-- Only CMP writes FL. (R28, the spec's own derivation.) -/
def Obligations.OnlyCmpWritesFlags : Prop :=
  ∀ (i : Instr) (s t : State), exec i s = .next t → (∀ a b, i ≠ .cmp a b) → t.fl = s.fl

/-! ## The stack -/

/-- PUSH r: the value the register had before is stored at SP - 1 mod 256, SP is decremented, the pc goes past two
bytes, nothing else changes; a register byte of 8 or more halts with IllegalRegister, SP and memory unchanged.
(R132; that PUSH R7 pushes the old SP is decision D5, log entry 9.) -/
def Obligations.PushStoresBelowSp : Prop :=
  ∀ (om : OpcodeMap) (r : Byte) (s : State),
    encode om (.push r) = [om .PUSH, r] ∧ defaultOpcodeMap .PUSH = 0x4D ∧
    s.pushAddr.toNat = (s.sp.toNat + 255) % 256 ∧
    (∀ hr : r.toNat < 8, ∃ t, exec (.push r) s = .next t ∧
      t.memRead s.pushAddr = s.reg ⟨r.toNat, hr⟩ ∧ SameMemBut s.pushAddr s t ∧
      t.sp = s.pushAddr ∧ SameRegsBut [spIdx] s t ∧
      t.pc.toNat = (s.pc.toNat + 2) % 256 ∧ t.fl = s.fl ∧ t.run = s.run ∧ t.out = s.out) ∧
    (8 ≤ r.toNat → exec (.push r) s = .next { s with run := .halted (.illegalRegister r) })

/-- POP r: the byte at SP goes to the register and SP is incremented mod 256, the popped byte stays in memory, the pc goes
past two bytes, nothing else changes; POP R7 leaves R7 equal to the popped byte; a register byte of 8 or more halts
with IllegalRegister. (R135; the final R7 of POP R7 is decision D6, log entry 10.) -/
def Obligations.PopLoadsFromSp : Prop :=
  ∀ (om : OpcodeMap) (r : Byte) (s : State),
    encode om (.pop r) = [om .POP, r] ∧ defaultOpcodeMap .POP = 0x4C ∧
    (∀ hr : r.toNat < 8, ∃ t, exec (.pop r) s = .next t ∧
      t.reg ⟨r.toNat, hr⟩ = s.memRead s.sp ∧
      (r.toNat ≠ 7 → t.sp.toNat = (s.sp.toNat + 1) % 256) ∧ (r.toNat = 7 → t.sp = s.memRead s.sp) ∧
      SameRegsBut [⟨r.toNat, hr⟩, spIdx] s t ∧
      t.pc.toNat = (s.pc.toNat + 2) % 256 ∧ t.fl = s.fl ∧ t.run = s.run ∧ t.out = s.out ∧ SameMem s t) ∧
    (8 ≤ r.toNat → exec (.pop r) s = .next { s with run := .halted (.illegalRegister r) })

/-- PUSH then POP of the same register, R7 included, leaves every register as it was, SP too, and the pushed byte in
memory below the old SP. (R137, the spec's own derivation; for R7 it rests on decisions D5 and D6.) -/
def Obligations.PushThenPopRestoresEveryRegister : Prop :=
  ∀ (r : Byte) (hr : r.toNat < 8) (s : State),
    ∃ t u, exec (.push r) s = .next t ∧ exec (.pop r) t = .next u ∧ SameRegs s u ∧
      u.memRead (s.sp - 1) = s.reg ⟨r.toNat, hr⟩ ∧ SameMemBut (s.sp - 1) s u ∧
      u.pc.toNat = (s.pc.toNat + 4) % 256 ∧ u.fl = s.fl ∧ u.run = s.run ∧ u.out = s.out

/-- The stack wraps without a fault: a PUSH or CALL at SP = 0x00 stores at 0xFF and leaves SP = 0xFF; a RET or a POP (of
another register) at SP = 0xFF reads 0xFF and leaves SP = 0x00. (R64, the spec's own derivation.) -/
def Obligations.StackWrapsAtBothEnds : Prop :=
  ∀ (r : Byte) (hr : r.toNat < 8) (s : State),
    (s.sp = 0x00 →
      (∃ t, exec (.push r) s = .next t ∧ t.sp = 0xFF ∧ t.memRead 0xFF = s.reg ⟨r.toNat, hr⟩ ∧ t.run = s.run) ∧
      (∃ t, exec (.call r) s = .next t ∧ t.sp = 0xFF ∧ t.memRead 0xFF = s.pc + 2 ∧ t.run = s.run)) ∧
    (s.sp = 0xFF →
      (∃ t, exec .ret s = .next t ∧ t.sp = 0x00 ∧ t.pc = s.memRead 0xFF ∧ t.run = s.run) ∧
      (r.toNat ≠ 7 → ∃ t, exec (.pop r) s = .next t ∧ t.sp = 0x00 ∧ t.reg ⟨r.toNat, hr⟩ = s.memRead 0xFF ∧
        t.run = s.run))

/-! ## Control transfer and halt -/

/-- HLT: the core halts with reason Hlt and the pc goes past the HLT byte; nothing else changes. (R140; the advance is
decision D7, log entry 11.) -/
def Obligations.HltHaltsAfterItself : Prop :=
  ∀ (om : OpcodeMap) (s : State),
    encode om .hlt = [om .HLT] ∧ defaultOpcodeMap .HLT = 0x01 ∧
    ∃ t, exec .hlt s = .next t ∧ t.run = .halted .hlt ∧ t.pc.toNat = (s.pc.toNat + 1) % 256 ∧
      SameRegs s t ∧ t.fl = s.fl ∧ t.out = s.out ∧ SameMem s t

/-- CALL r: pc + 2 mod 256 is stored at SP - 1, SP is decremented, the pc becomes the value the register had before;
nothing else changes; a register byte of 8 or more halts with IllegalRegister. (R143; that CALL R7 jumps to the old
SP is decision D5, log entry 9.) -/
def Obligations.CallPushesPcPlusTwoAndJumps : Prop :=
  ∀ (om : OpcodeMap) (r : Byte) (s : State),
    encode om (.call r) = [om .CALL, r] ∧ defaultOpcodeMap .CALL = 0x48 ∧
    s.pushAddr.toNat = (s.sp.toNat + 255) % 256 ∧
    (∀ hr : r.toNat < 8, ∃ t, exec (.call r) s = .next t ∧
      t.pc = s.reg ⟨r.toNat, hr⟩ ∧ (t.memRead s.pushAddr).toNat = (s.pc.toNat + 2) % 256 ∧
      SameMemBut s.pushAddr s t ∧ t.sp = s.pushAddr ∧ SameRegsBut [spIdx] s t ∧
      t.fl = s.fl ∧ t.run = s.run ∧ t.out = s.out) ∧
    (8 ≤ r.toNat → exec (.call r) s = .next { s with run := .halted (.illegalRegister r) })

/-- RET: the pc becomes the byte at SP and SP is incremented mod 256; nothing else changes, and nothing makes it
fault. (R146.) -/
def Obligations.RetPopsThePc : Prop :=
  ∀ (om : OpcodeMap) (s : State),
    encode om .ret = [om .RET] ∧ defaultOpcodeMap .RET = 0x09 ∧
    ∃ t, exec .ret s = .next t ∧ t.pc = s.memRead s.sp ∧ t.sp.toNat = (s.sp.toNat + 1) % 256 ∧
      SameRegsBut [spIdx] s t ∧ t.fl = s.fl ∧ t.run = s.run ∧ t.out = s.out ∧ SameMem s t

/-- A RET returns to exactly P + 2 after a CALL at P, and SP is as before the CALL, if the callee leaves SP and the byte at
SP as CALL left them, whatever else it does. (R144, the spec's own derivation.) -/
def Obligations.RetReturnsBehindItsCall : Prop :=
  ∀ (r : Byte) (hr : r.toNat < 8) (s t : State), exec (.call r) s = .next t → t.pc = s.reg ⟨r.toNat, hr⟩ ∧
    ∀ u : State, u.sp = t.sp → u.memRead t.sp = t.memRead t.sp →
      ∃ v, exec .ret u = .next v ∧ v.pc.toNat = (s.pc.toNat + 2) % 256 ∧ v.sp = s.sp

/-- JMP r: the pc becomes the value of the register, always; nothing else changes; a register byte of 8 or more halts with
IllegalRegister. (R148.) -/
def Obligations.JmpJumpsToTheRegister : Prop :=
  ∀ (om : OpcodeMap) (r : Byte) (s : State),
    encode om (.jmp r) = [om .JMP, r] ∧ defaultOpcodeMap .JMP = 0x50 ∧
    (∀ hr : r.toNat < 8, ∃ t, exec (.jmp r) s = .next t ∧ t.pc = s.reg ⟨r.toNat, hr⟩ ∧
      SameRegs s t ∧ t.fl = s.fl ∧ t.run = s.run ∧ t.out = s.out ∧ SameMem s t) ∧
    (8 ≤ r.toNat → exec (.jmp r) s = .next { s with run := .halted (.illegalRegister r) })

/-- JEQ r: the pc becomes the value of the register if Equal is set and goes past two bytes otherwise; nothing else
changes; a register byte of 8 or more halts with IllegalRegister, taken or not. (R150.) -/
def Obligations.JeqJumpsIfEqual : Prop :=
  ∀ (om : OpcodeMap) (r : Byte) (s : State),
    encode om (.jeq r) = [om .JEQ, r] ∧ defaultOpcodeMap .JEQ = 0x51 ∧
    (∀ hr : r.toNat < 8, ∃ t, exec (.jeq r) s = .next t ∧
      (s.fl.e = true → t.pc = s.reg ⟨r.toNat, hr⟩) ∧ (s.fl.e = false → t.pc.toNat = (s.pc.toNat + 2) % 256) ∧
      SameRegs s t ∧ t.fl = s.fl ∧ t.run = s.run ∧ t.out = s.out ∧ SameMem s t) ∧
    (8 ≤ r.toNat → exec (.jeq r) s = .next { s with run := .halted (.illegalRegister r) })

/-- JNE r: the pc becomes the value of the register if Equal is clear and goes past two bytes otherwise; nothing else
changes; a register byte of 8 or more halts with IllegalRegister, taken or not. (R153.) -/
def Obligations.JneJumpsIfNotEqual : Prop :=
  ∀ (om : OpcodeMap) (r : Byte) (s : State),
    encode om (.jne r) = [om .JNE, r] ∧ defaultOpcodeMap .JNE = 0x52 ∧
    (∀ hr : r.toNat < 8, ∃ t, exec (.jne r) s = .next t ∧
      (s.fl.e = false → t.pc = s.reg ⟨r.toNat, hr⟩) ∧ (s.fl.e = true → t.pc.toNat = (s.pc.toNat + 2) % 256) ∧
      SameRegs s t ∧ t.fl = s.fl ∧ t.run = s.run ∧ t.out = s.out ∧ SameMem s t) ∧
    (8 ≤ r.toNat → exec (.jne r) s = .next { s with run := .halted (.illegalRegister r) })

/-- JEQ and JNE are complementary after a CMP: equal values take JEQ and not JNE, different values the reverse.
(R155, the spec's own derivation.) -/
def Obligations.JeqAndJneAreComplementaryAfterCmp : Prop :=
  ∀ (a b r : Byte) (ha : a.toNat < 8) (hb : b.toNat < 8) (hr : r.toNat < 8) (s : State),
    ∃ t u v, exec (.cmp a b) s = .next t ∧ exec (.jeq r) t = .next u ∧ exec (.jne r) t = .next v ∧
      (s.reg ⟨a.toNat, ha⟩ = s.reg ⟨b.toNat, hb⟩ →
        u.pc = s.reg ⟨r.toNat, hr⟩ ∧ v.pc.toNat = (s.pc.toNat + 5) % 256) ∧
      (s.reg ⟨a.toNat, ha⟩ ≠ s.reg ⟨b.toNat, hb⟩ →
        u.pc.toNat = (s.pc.toNat + 5) % 256 ∧ v.pc = s.reg ⟨r.toNat, hr⟩)

/-- A JMP whose register holds its own address never halts: however many ticks are made, the state is the same.
(R95, R188.) -/
def Obligations.JmpToItselfNeverHalts : Prop :=
  ∀ (om : OpcodeMap) (s : State) (r : Byte) (hr : r.toNat < 8), s.run = .running →
    decode om (s.memRead s.pc) (s.memRead (s.pc + 1)) (s.memRead (s.pc + 2)) = .ok (.jmp r) →
    s.reg ⟨r.toNat, hr⟩ = s.pc → ∀ n, s.inputs om (List.replicate n .tick) = .next s

/-! ## Faults and halting -/

/-- The first register operand that is 8 or more, operandA before operandB, halts any instruction with IllegalRegister and
its value, before any effect and whether or not the instruction would use it. (R90, R163, R164: decision D4, log
entry 6.) -/
def Obligations.FirstIllegalRegisterHaltsBeforeAnyEffect : Prop :=
  ∀ (i : Instr) (s : State) (f : Byte), i.firstIllegal? = some f →
    exec i s = .next { s with run := .halted (.illegalRegister f) }

/-- A step whose opcode byte is no mnemonic's reports the byte on the output port and halts with UnknownOpcode; under the
default map 0x00 and 0xFF are such bytes. (R161.) -/
def Obligations.UnknownOpcodeIsReportedAndHalts : Prop :=
  (∀ (om : OpcodeMap) (s : State), s.run = .running → (∀ m, om m ≠ s.memRead s.pc) →
    ∃ t, stepWith om s = .next t ∧ t.out = s.out ++ [.unknown (s.memRead s.pc)] ∧
      t.run = .halted (.unknownOpcode (s.memRead s.pc))) ∧
  (∀ m, defaultOpcodeMap m ≠ 0x00) ∧ ∀ m, defaultOpcodeMap m ≠ 0xFF

/-- An unknown-opcode step changes nothing but run and out, whatever its operand bytes: registers, FL, memory and pc keep
their values. (R162, R164: decisions D8 and D4, log entry 11.) -/
def Obligations.UnknownOpcodeChangesOnlyRunAndOut : Prop :=
  ∀ (om : OpcodeMap) (s : State), s.run = .running → (∀ m, om m ≠ s.memRead s.pc) →
    ∃ t, stepWith om s = .next t ∧ SameRegs s t ∧ t.fl = s.fl ∧ t.pc = s.pc ∧ t.mem = s.mem ∧
      t = { s with run := t.run, out := t.out }

/-- Faults are precise: where a tick of a running core ends in a fault's halt, the state is the one before but for run and,
for an unknown opcode, its report on out. (R166, the spec's own derivation.) -/
def Obligations.FaultsArePrecise : Prop :=
  ∀ (om : OpcodeMap) (s t : State) (f : SyncFault), s.run = .running → stepWith om s = .next t →
    t.run = .halted f.reason → t = { s with run := .halted f.reason, out := s.out ++ f.report }

/-- A running core whose bytes decode to an instruction that names only registers R0 to R7 does not fault.
(R89, R90, R160.) -/
def Obligations.WellFormedInstructionDoesNotFault : Prop :=
  ∀ (om : OpcodeMap) (s : State) (i : Instr), s.run = .running →
    decode om (s.memRead s.pc) (s.memRead (s.pc + 1)) (s.memRead (s.pc + 2)) = .ok i → i.wellFormed = true →
    ∃ t, stepWith om s = .next t ∧ t.FaultFree

/-- A running core halts for no other cause than the four of the spec, each with its own reason: HLT, an unknown opcode, a
register operand that names no register, the stop input. (R29, R37: IllegalRegister and Stopped are decisions D4 and
D18.) -/
def Obligations.HaltHasOneOfFourCauses : Prop :=
  ∀ (om : OpcodeMap) (s t : State) (x : HostInput) (r : HaltReason), s.run = .running → s.input om x = .next t →
    t.run = .halted r →
    (x = .tick ∧ r = .hlt ∧
      decode om (s.memRead s.pc) (s.memRead (s.pc + 1)) (s.memRead (s.pc + 2)) = .ok .hlt) ∨
    (x = .tick ∧ r = .unknownOpcode (s.memRead s.pc) ∧ ∀ m, om m ≠ s.memRead s.pc) ∨
    (x = .tick ∧ ∃ i f, decode om (s.memRead s.pc) (s.memRead (s.pc + 1)) (s.memRead (s.pc + 2)) = .ok i ∧
      i.firstIllegal? = some f ∧ r = .illegalRegister f) ∨
    (x = .stop ∧ r = .stopped)

/-! ## Encoding -/

/-- Decode and encode agree under every map the spec admits: an instruction's bytes, whatever bytes follow them, decode to
it, with every operand at every value. (R8, R70 to R78.) -/
def Obligations.DecodeOfEncodeUnderEveryLegalMap : Prop :=
  ∀ (om : OpcodeMap), LegalMap om → ∀ (i : Instr) (x y op a b : Byte) (rest : List Byte),
    encode om i ++ [x, y] = op :: a :: b :: rest → decode om op a b = .ok i

/-- What is decoded is what is encoded there: three bytes that decode to an instruction begin with its encoding, so each
byte sequence has one meaning. (R70, R74, R89.) -/
def Obligations.DecodedBytesAreTheEncoding : Prop :=
  ∀ (om : OpcodeMap) (op a b : Byte) (i : Instr), decode om op a b = .ok i →
    encode om i = [op, a, b].take (1 + i.mnemonic.operandCount)

/-- The operand count n is bits 7:6 of the opcode byte: the instruction is 1 + n bytes long, told from the opcode alone, and
1 + n mod 256 is the automatic pc advance of an instruction that names registers and whose handler does not write pc, HLT
among them. (R71, R93: decision D7, log entry 11, for HLT's advance; decision D1, log entry 12, for the wrap. Log entry 16,
DEDUCED: the model's advance takes n from the mnemonic, and this says that the opcode byte gives the same n.) -/
def Obligations.OpcodeTopBitsGiveLengthAndAdvance : Prop :=
  ∀ (om : OpcodeMap), LegalMap om → ∀ (op a b : Byte) (i : Instr), decode om op a b = .ok i →
    (encode om i).length = 1 + operandCountOf op ∧ operandCountOf op = op.toNat / 64 ∧
    (∀ (a' b' : Byte) (i' : Instr), decode om op a' b' = .ok i' → (encode om i').length = (encode om i).length) ∧
    ∀ s t, i.wellFormed = true → instrTakes i s = false → exec i s = .next t →
      t.pc.toNat = (s.pc.toNat + (1 + operandCountOf op)) % 256

/-- No opcode with bits 7:6 = 11 is recognised, under any map the spec admits. (R72, R79, the spec's own
derivation.) -/
def Obligations.TopBitsElevenAreUnknown : Prop :=
  ∀ (om : OpcodeMap), LegalMap om → ∀ op a b : Byte, op.toNat / 64 = 3 →
    decode om op a b = .error (.unknownOpcode op)

/-- Both opcode maps the spec lists are maps it admits. (R72; D2; log entry 1.) -/
def Obligations.ListedOpcodeMapsAreLegal : Prop := LegalMap defaultOpcodeMap ∧ LegalMap secondOpcodeMap

/-- Under the default map 243 of the 256 byte values are unknown opcodes. (R79, the spec's own derivation from the
default map; log entry 1.) -/
def Obligations.UnknownOpcodesAre243 : Prop :=
  ((List.range 256).filter fun n => (mnemonicOf? defaultOpcodeMap (BitVec.ofNat 8 n)).isNone).length = 243

/-- Words written out from the default opcode table decode to their instructions, one or more of each format.
(R73, R78: log entry 1.) -/
def Obligations.TableWordsDecode : Prop :=
  decodeTableWord 8 0b00000001 = some .hlt ∧
  decodeTableWord 8 0b00001001 = some .ret ∧
  decodeTableWord 16 0b00000101_01000011 = some (.prn 5) ∧
  decodeTableWord 16 0b00000111_01001101 = some (.push 7) ∧
  decodeTableWord 16 0b00000010_01001000 = some (.call 2) ∧
  decodeTableWord 24 0b00000001_00000000_10101000 = some (.add 0 1) ∧
  decodeTableWord 24 0b11111111_00000011_10011001 = some (.ldi 3 255) ∧
  decodeTableWord 8 0b00000000 = none

/-! ## The step -/

/-- The fetch reads three bytes, whatever the instruction, at pc, pc + 1 and pc + 2 mod 256, and they are the first
transactions of a tick of a running core, in that order. (R88: decision D1, log entry 12, for the wrap; log entry 17, DESIGN
CHOICE, for the list of a tick's transactions that stands beside the step.) -/
def Obligations.FetchAlwaysReadsThreeBytes : Prop :=
  ∀ (om : OpcodeMap) (s : State),
    s.fetch.opcode = s.memRead s.pc ∧
    s.fetch.operandA = s.memRead (BitVec.ofNat 8 ((s.pc.toNat + 1) % 256)) ∧
    s.fetch.operandB = s.memRead (BitVec.ofNat 8 ((s.pc.toNat + 2) % 256)) ∧
    (s.run = .running → ∃ l, s.stepAccesses om =
      .read s.pc :: .read (BitVec.ofNat 8 ((s.pc.toNat + 1) % 256)) ::
        .read (BitVec.ofNat 8 ((s.pc.toNat + 2) % 256)) :: l)

/-- A step runs the decoded instruction: a tick of a running core whose bytes at pc decode to an instruction is exec of it,
one whose bytes do not decode takes the unknown-opcode fault, and a tick of a halted core changes nothing; `step` is
that with the default map. (R35, R94.) -/
def Obligations.TickRunsTheDecodedInstruction : Prop :=
  ∀ (om : OpcodeMap) (s : State),
    (s.run = .running → ∀ i, decode om (s.memRead s.pc) (s.memRead (s.pc + 1)) (s.memRead (s.pc + 2)) = .ok i →
      stepWith om s = exec i s) ∧
    (s.run = .running → ∀ op,
      decode om (s.memRead s.pc) (s.memRead (s.pc + 1)) (s.memRead (s.pc + 2)) = .error (.unknownOpcode op) →
      stepWith om s = .next (s.takeFault (.unknownOpcode op))) ∧
    (∀ r, s.run = .halted r → stepWith om s = .next s) ∧
    step s = stepWith defaultOpcodeMap s

/-- A running core whose memory holds the encoding of an instruction from pc on, under any map the spec admits, wrapping at
the top of memory, runs that instruction in one tick. (R70, R78, R94.) -/
def Obligations.TickRunsTheEncodedInstruction : Prop :=
  ∀ (om : OpcodeMap), LegalMap om → ∀ (i : Instr) (s : State), s.run = .running →
    (∀ (k : Nat) (v : Byte), (encode om i)[k]? = some v → s.memRead (s.pc + BitVec.ofNat 8 k) = v) →
    stepWith om s = exec i s

/-- Every tick ends in a next state: no step faults, is refused or fails to end. (R95; log entry 5.) -/
def Obligations.EveryTickAnswersNext : Prop := ∀ (om : OpcodeMap) (s : State), ∃ t, stepWith om s = .next t

/-- The pc update: an instruction that names registers and whose handler does not write pc, HLT and an untaken JEQ or JNE
among them, leaves it at pc + 1 + n mod 256; a taken jump or call leaves it at the register's value and RET at the byte at
SP; a step that takes the register fault leaves it alone. (R93: decisions D1 and D7, log entries 11 and 12.) -/
def Obligations.PcAdvancesUnlessTheHandlerWritesIt : Prop :=
  ∀ (i : Instr) (s t : State), exec i s = .next t →
    (i.wellFormed = true → instrTakes i s = false → t.pc.toNat = (s.pc.toNat + 1 + i.mnemonic.operandCount) % 256) ∧
    (i.wellFormed = true → instrTakes i s = true →
      (i = .ret ∧ t.pc = s.memRead s.sp) ∨
      ∃ (r : Byte) (hr : r.toNat < 8), i.operandBytes = [r] ∧ t.pc = s.reg ⟨r.toNat, hr⟩) ∧
    (i.wellFormed = false → t.pc = s.pc)

/-- Every instruction writes only the general registers the access table gives it. (R22, the spec's own
derivation.) -/
def Obligations.InstructionsWriteOnlyTheirRegisters : Prop :=
  ∀ (i : Instr) (s t : State), exec i s = .next t → SameRegsBut (instrWrites i) s t

/-! ## Memory -/

/-- A read returns the byte most recently written at its address, or the byte of `MEM0` if none was written. (R53.) -/
def Obligations.ReadReturnsTheLatestWriteOrTheLaunchImage : Prop :=
  ∀ (writes : List (Byte × Byte)) (a : Byte),
    Memory.read (writes.foldl (fun m w => Memory.store m w.1.toNat w.2) []) a =
      ((writes.reverse.find? fun w => w.1 == a).map Prod.snd).getD (Config.mem0 a)

/-- Every 256-byte image is the content of some memory in canonical form, so that a run can be launched with any
`MEM0`. (R51, R52: decisions D1 and D11, log entries 2 and 3.) -/
def Obligations.EveryImageCanBeLaunched : Prop :=
  ∀ image : Byte → Byte, ∃ m : Memory, m.wf = true ∧ ∀ a, (State.launch m).memRead a = image a

/-- Only PUSH and CALL store, and only the byte at the new SP; every other instruction, and every one that takes the
register fault, leaves all of memory as it is. (R58, the spec's own derivation.) -/
def Obligations.OnlyPushAndCallStore : Prop :=
  ∀ (i : Instr) (s t : State), exec i s = .next t →
    ((∃ r, i = .push r ∨ i = .call r) → i.wellFormed = true → SameMemBut s.pushAddr s t) ∧
    ((∀ r, i ≠ .push r ∧ i ≠ .call r) ∨ i.wellFormed = false → SameMem s t)

/-- The memory after a tick is the memory before with the tick's transactions performed. (R57, R58, R61, the spec's own
derivation; log entry 17.) -/
def Obligations.MemoryChangesByTheTransactionsOfTheTick : Prop :=
  ∀ (om : OpcodeMap) (s t : State), stepWith om s = .next t → t.mem = Memory.perform (s.stepAccesses om) s.mem

/-- A tick depends on no byte of memory but those its read transactions name: if another memory agrees on them, the tick
leaves the same registers, pc, FL, run and out, makes the same transactions, and changes no byte that it does not also
change, to the same value, in the other memory. (R58, the spec's own derivation; log entry 17.) -/
def Obligations.TickDependsOnlyOnTheBytesItReads : Prop :=
  ∀ (om : OpcodeMap) (s : State) (m : Memory), (∀ a ∈ readAddrs (s.stepAccesses om), m.read a = s.memRead a) →
    ∃ t t', stepWith om s = .next t ∧ stepWith om { s with mem := m } = .next t' ∧
      t'.regs = t.regs ∧ t'.pc = t.pc ∧ t'.fl = t.fl ∧ t'.run = t.run ∧ t'.out = t.out ∧
      State.stepAccesses om { s with mem := m } = s.stepAccesses om ∧
      ∀ a, t'.memRead a = t.memRead a ∨ (t.memRead a = s.memRead a ∧ t'.memRead a = m.read a)

/-- A store is seen by the next fetch of that byte, and so is a poke of the host; the byte is fetched as any of the
three. (R62, R186: decision D13, log entry 14.) -/
def Obligations.StoresAreSeenByTheNextFetch : Prop :=
  (∀ (r : Byte) (hr : r.toNat < 8) (s : State), ∃ t, exec (.push r) s = .next t ∧
    (t.pc = s.sp - 1 → t.fetch.opcode = s.reg ⟨r.toNat, hr⟩) ∧
    (t.pc + 1 = s.sp - 1 → t.fetch.operandA = s.reg ⟨r.toNat, hr⟩) ∧
    (t.pc + 2 = s.sp - 1 → t.fetch.operandB = s.reg ⟨r.toNat, hr⟩)) ∧
  (∀ (r : Byte) (_ : r.toNat < 8) (s : State), ∃ t, exec (.call r) s = .next t ∧
    (t.pc = s.sp - 1 → t.fetch.opcode = s.pc + 2) ∧
    (t.pc + 1 = s.sp - 1 → t.fetch.operandA = s.pc + 2) ∧
    (t.pc + 2 = s.sp - 1 → t.fetch.operandB = s.pc + 2)) ∧
  ∀ (om : OpcodeMap) (s : State) (a v : Byte), ∃ t, s.input om (.poke a v) = .next t ∧
    (s.pc = a → t.fetch.opcode = v) ∧ (s.pc + 1 = a → t.fetch.operandA = v) ∧ (s.pc + 2 = a → t.fetch.operandB = v)

/-! ## Output -/

/-- A tick appends at most one event: the value of PRN's register, or the report of an unknown opcode; every other tick
leaves out as it is. (R33, R103, R161: decision D9, log entry 15.) -/
def Obligations.TickOutputsAtMostOneEvent : Prop :=
  ∀ (om : OpcodeMap) (s t : State), stepWith om s = .next t →
    t.out = s.out ∨
    (∃ (r : Byte) (hr : r.toNat < 8), s.run = .running ∧
      decode om (s.memRead s.pc) (s.memRead (s.pc + 1)) (s.memRead (s.pc + 2)) = .ok (.prn r) ∧
      t.out = s.out ++ [.print (s.reg ⟨r.toNat, hr⟩)]) ∨
    (s.run = .running ∧ (∀ m, om m ≠ s.memRead s.pc) ∧ t.out = s.out ++ [.unknown (s.memRead s.pc)])

/-- The core only appends to out: whatever the host does but reset, the events emitted before stay, in their order, and
there are at most as many new ones as ticks. (R33: decision D9, log entry 15.) -/
def Obligations.OutputOnlyGrowsUntilReset : Prop :=
  ∀ (om : OpcodeMap) (l : List HostInput) (s t : State), HostInput.reset ∉ l → s.inputs om l = .next t →
    ∃ es : List Event, t.out = s.out ++ es ∧ es.length ≤ l.count .tick

/-! ## The invariant -/

/-- The invariant holds after reset, and at the launch of a run with any memory in canonical form. (R39, R122; log
entries 2 and 3.) -/
def Obligations.InvariantHoldsAfterReset : Prop :=
  State.reset.Inv ∧ ∀ m : Memory, m.wf = true → (State.launch m).Inv

/-- Every step keeps the invariant, from every state that has it and under every opcode map: memory stays in canonical
form, and FL is 0 or has exactly one flag set. (R122, the spec's own derivation; log entry 3.) -/
def Obligations.EveryStepKeepsTheInvariant : Prop :=
  ∀ (om : OpcodeMap) (s t : State), s.Inv →
    (stepWith om s = .next t → t.Inv) ∧ (step s = .next t → t.Inv)

/-- Whatever the host does to the block, the invariant holds: every sequence of ticks, resets, stops and pokes goes through
to a state that has it, from every state that has it. (R34 to R38, R122; log entries 3 and 13.) -/
def Obligations.EveryInputSequenceKeepsTheInvariant : Prop :=
  ∀ (om : OpcodeMap) (l : List HostInput) (s : State), s.Inv → ∃ t, s.inputs om l = .next t ∧ t.Inv
end

