-- ==== Sys2Proof/Laws/Decode.lean ====
section
/-! SUPPORT. The laws of the opcode search, the decoder and the encoder. -/

namespace Sys2Proof

variable {om : OpcodeMap} {op : Byte} {m : Mnemonic}

theorem mem_allMnemonics (m : Mnemonic) : m ∈ allMnemonics := by cases m <;> decide

/-- The search finds only a mnemonic whose opcode the byte is. -/
theorem mnemonicOf?_sound (h : mnemonicOf? om op = some m) : om m = op := by
  have := List.find?_some h
  simpa using this

/-- Under an injective map the search finds the mnemonic of every opcode. -/
theorem mnemonicOf?_complete (hom : LegalMap om) (m : Mnemonic) : mnemonicOf? om (om m) = some m := by
  rcases h : mnemonicOf? om (om m) with _ | m'
  · have := List.find?_eq_none.mp h m (mem_allMnemonics m)
    simp at this
  · rw [hom.1 _ _ (mnemonicOf?_sound h)]

/-- The search fails on exactly the unknown opcodes. -/
theorem mnemonicOf?_eq_none : mnemonicOf? om op = none ↔ ∀ m, om m ≠ op := by
  rw [mnemonicOf?, List.find?_eq_none]
  exact ⟨fun h m e => h m (mem_allMnemonics m) (by simp [e]), fun h m _ => by simp [h m]⟩

/-- All the decoder can answer. -/
theorem decode_cases (om : OpcodeMap) (op a b : Byte) :
    (∃ m, om m = op ∧ decode om op a b = .ok (m.withOperands a b)) ∨
    ((∀ m, om m ≠ op) ∧ decode om op a b = .error (.unknownOpcode op)) := by
  rcases h : mnemonicOf? om op with _ | m
  · exact .inr ⟨mnemonicOf?_eq_none.mp h, by rw [decode, h]⟩
  · exact .inl ⟨m, mnemonicOf?_sound h, by rw [decode, h]⟩

@[simp] theorem Mnemonic.mnemonic_withOperands (m : Mnemonic) (a b : Byte) :
    (m.withOperands a b).mnemonic = m := by cases m <;> rfl

/-- An instruction is rebuilt from its mnemonic and its own operand bytes, whatever fills the bytes it lacks. -/
theorem Instr.withOperands_operandBytes (i : Instr) (x y : Byte) :
    i.mnemonic.withOperands ((i.operandBytes ++ [x, y]).getD 0 0) ((i.operandBytes ++ [x, y]).getD 1 0) = i := by
  cases i <;> rfl

end Sys2Proof
end

