-- ==== Sys2Proof/Laws/Flags.lean ====
section
/-! SUPPORT. The laws of FL: its byte, its bits, and what the comparison leaves. -/

namespace Sys2Proof.Machine

theorem Flags.ofByte_toByte (f : Flags) : Flags.ofByte f.toByte = f := by
  obtain ⟨e, g, l⟩ := f
  cases e <;> cases g <;> cases l <;> rfl

theorem Flags.get_put (f : Flags) (b c : FlagBit) (v : Bool) :
    (f.put b v).get c = if c = b then v else f.get c := by
  cases b <;> cases c <;> rfl

/-- Of Less, Equal and Greater, the comparison sets the one that holds of the unsigned values. -/
theorem compareFlags_cases (va vb : Byte) :
    (va.toNat < vb.toNat ∧ compareFlags va vb = ⟨false, false, true⟩) ∨
    (va.toNat = vb.toNat ∧ compareFlags va vb = ⟨true, false, false⟩) ∨
    (vb.toNat < va.toNat ∧ compareFlags va vb = ⟨false, true, false⟩) := by
  unfold compareFlags
  rcases Nat.lt_trichotomy va.toNat vb.toNat with h | h | h
  · exact .inl ⟨h, by simp [h, Nat.ne_of_lt h, Nat.le_of_lt h]⟩
  · exact .inr (.inl ⟨h, by simp [h]⟩)
  · exact .inr (.inr ⟨h, by simp [h, Nat.ne_of_gt h, Nat.le_of_lt h]⟩)

end Sys2Proof.Machine
end

