-- ==== Sys2Proof/Laws/Memory.lean ====
section
/-! SUPPORT. The laws of memory: read after write, and that every operation keeps the canonical form. -/

namespace Sys2Proof.Machine

theorem Memory.lookup_store_same (m : Memory) (a : Nat) (v : Byte) : (m.store a v).lookup a = some v := by
  induction m with
  | nil => simp [Memory.store, Memory.lookup]
  | cons c m ih =>
    obtain ⟨k, w⟩ := c
    unfold Memory.store
    split
    · simp [Memory.lookup]
    · split
      · simp [Memory.lookup]
      · rw [Memory.lookup, if_neg (by omega), ih]

theorem Memory.lookup_store_other (m : Memory) {a b : Nat} (v : Byte) (h : b ≠ a) :
    (m.store a v).lookup b = m.lookup b := by
  induction m with
  | nil => simp [Memory.store, Memory.lookup, Ne.symm h]
  | cons c m ih =>
    obtain ⟨k, w⟩ := c
    unfold Memory.store
    split
    · rw [Memory.lookup, if_neg (Ne.symm h)]
    · split
      · subst_vars; rw [Memory.lookup, Memory.lookup, if_neg (Ne.symm h), if_neg (Ne.symm h)]
      · rw [Memory.lookup, Memory.lookup, ih]

theorem Memory.read_store_same (m : Memory) (a v : Byte) : Memory.read (m.store a.toNat v) a = v := by
  simp [Memory.read, Memory.lookup_store_same]

theorem Memory.read_store_other (m : Memory) {a b : Byte} (v : Byte) (h : b ≠ a) :
    Memory.read (m.store a.toNat v) b = m.read b := by
  rw [Memory.read, Memory.lookup_store_other m v fun e => h (BitVec.eq_of_toNat_eq e), Memory.read]

/-- The one law a reader of memory after a write needs. -/
theorem Memory.read_store (m : Memory) (a b v : Byte) :
    Memory.read (m.store a.toNat v) b = if b = a then v else m.read b := by
  by_cases h : b = a
  · subst h; rw [if_pos rfl, Memory.read_store_same]
  · rw [if_neg h, Memory.read_store_other m v h]

theorem Memory.risingFrom_store {m : Memory} {lo a : Nat} (v : Byte) (hlo : lo ≤ a)
    (h : Memory.risingFrom lo m = true) : Memory.risingFrom lo (m.store a v) = true := by
  induction m generalizing lo with
  | nil => simp [Memory.store, Memory.risingFrom, hlo]
  | cons c m ih =>
    obtain ⟨k, w⟩ := c
    simp only [Memory.risingFrom, Bool.and_eq_true, decide_eq_true_eq] at h
    unfold Memory.store
    split
    · simp only [Memory.risingFrom, Bool.and_eq_true, decide_eq_true_eq]
      exact ⟨hlo, by omega, h.2⟩
    · split
      · subst_vars
        simp only [Memory.risingFrom, Bool.and_eq_true, decide_eq_true_eq]
        exact h
      · simp only [Memory.risingFrom, Bool.and_eq_true, decide_eq_true_eq]
        exact ⟨h.1, ih (by omega) h.2⟩

theorem Memory.addresses_store {m : Memory} {a : Nat} (v : Byte) (ha : a < 256)
    (h : (m.all fun c => decide (c.1 < 256)) = true) :
    ((m.store a v).all fun c => decide (c.1 < 256)) = true := by
  induction m with
  | nil => simp [Memory.store, ha]
  | cons c m ih =>
    obtain ⟨k, w⟩ := c
    simp only [List.all_cons, Bool.and_eq_true, decide_eq_true_eq] at h
    unfold Memory.store
    split
    · simp [ha, h.1, h.2]
    · split
      · simp [ha, h.2]
      · simp [h.1, ih h.2]

/-- The canonical form is kept by the one operation that changes memory. -/
theorem Memory.wf_store {m : Memory} (a v : Byte) (h : m.wf = true) : (m.store a.toNat v).wf = true := by
  simp only [Memory.wf, Bool.and_eq_true] at h ⊢
  exact ⟨Memory.risingFrom_store v (Nat.zero_le _) h.1, Memory.addresses_store v a.isLt h.2⟩

theorem reset_mem_wf : State.reset.mem.wf = true := rfl

end Sys2Proof.Machine
end

