-- ==== Sys2Proof/Laws/State.lean ====
section
/-! SUPPORT. One lemma per field per update of State, and what the updates do to the reads of registers and memory. -/

namespace Sys2Proof.Machine

/-! ### setReg -/

@[simp] theorem State.setReg_pc (s : State) (i : RegIdx) (v : Byte) : (s.setReg i v).pc = s.pc := rfl
@[simp] theorem State.setReg_fl (s : State) (i : RegIdx) (v : Byte) : (s.setReg i v).fl = s.fl := rfl
@[simp] theorem State.setReg_run (s : State) (i : RegIdx) (v : Byte) : (s.setReg i v).run = s.run := rfl
@[simp] theorem State.setReg_out (s : State) (i : RegIdx) (v : Byte) : (s.setReg i v).out = s.out := rfl
@[simp] theorem State.setReg_mem (s : State) (i : RegIdx) (v : Byte) : (s.setReg i v).mem = s.mem := rfl

/-! ### setSp -/

@[simp] theorem State.setSp_pc (s : State) (v : Byte) : (s.setSp v).pc = s.pc := rfl
@[simp] theorem State.setSp_fl (s : State) (v : Byte) : (s.setSp v).fl = s.fl := rfl
@[simp] theorem State.setSp_run (s : State) (v : Byte) : (s.setSp v).run = s.run := rfl
@[simp] theorem State.setSp_out (s : State) (v : Byte) : (s.setSp v).out = s.out := rfl
@[simp] theorem State.setSp_mem (s : State) (v : Byte) : (s.setSp v).mem = s.mem := rfl

/-! ### setPc -/

@[simp] theorem State.setPc_regs (s : State) (a : Byte) : (s.setPc a).regs = s.regs := rfl
@[simp] theorem State.setPc_pc (s : State) (a : Byte) : (s.setPc a).pc = a := rfl
@[simp] theorem State.setPc_fl (s : State) (a : Byte) : (s.setPc a).fl = s.fl := rfl
@[simp] theorem State.setPc_run (s : State) (a : Byte) : (s.setPc a).run = s.run := rfl
@[simp] theorem State.setPc_out (s : State) (a : Byte) : (s.setPc a).out = s.out := rfl
@[simp] theorem State.setPc_mem (s : State) (a : Byte) : (s.setPc a).mem = s.mem := rfl

/-! ### advance -/

@[simp] theorem State.advance_regs (s : State) (n : Nat) : (s.advance n).regs = s.regs := rfl
@[simp] theorem State.advance_pc (s : State) (n : Nat) : (s.advance n).pc = s.pc + 1 + BitVec.ofNat 8 n := rfl
@[simp] theorem State.advance_fl (s : State) (n : Nat) : (s.advance n).fl = s.fl := rfl
@[simp] theorem State.advance_run (s : State) (n : Nat) : (s.advance n).run = s.run := rfl
@[simp] theorem State.advance_out (s : State) (n : Nat) : (s.advance n).out = s.out := rfl
@[simp] theorem State.advance_mem (s : State) (n : Nat) : (s.advance n).mem = s.mem := rfl

/-! ### memWrite -/

@[simp] theorem State.memWrite_regs (s : State) (a v : Byte) : (s.memWrite a v).regs = s.regs := rfl
@[simp] theorem State.memWrite_pc (s : State) (a v : Byte) : (s.memWrite a v).pc = s.pc := rfl
@[simp] theorem State.memWrite_fl (s : State) (a v : Byte) : (s.memWrite a v).fl = s.fl := rfl
@[simp] theorem State.memWrite_run (s : State) (a v : Byte) : (s.memWrite a v).run = s.run := rfl
@[simp] theorem State.memWrite_out (s : State) (a v : Byte) : (s.memWrite a v).out = s.out := rfl
@[simp] theorem State.memWrite_mem (s : State) (a v : Byte) : (s.memWrite a v).mem = s.mem.store a.toNat v := rfl

/-! ### output -/

@[simp] theorem State.output_regs (s : State) (e : Event) : (s.output e).regs = s.regs := rfl
@[simp] theorem State.output_pc (s : State) (e : Event) : (s.output e).pc = s.pc := rfl
@[simp] theorem State.output_fl (s : State) (e : Event) : (s.output e).fl = s.fl := rfl
@[simp] theorem State.output_run (s : State) (e : Event) : (s.output e).run = s.run := rfl
@[simp] theorem State.output_out (s : State) (e : Event) : (s.output e).out = s.out ++ [e] := rfl
@[simp] theorem State.output_mem (s : State) (e : Event) : (s.output e).mem = s.mem := rfl

/-! ### halt -/

@[simp] theorem State.halt_regs (s : State) (r : HaltReason) : (s.halt r).regs = s.regs := rfl
@[simp] theorem State.halt_pc (s : State) (r : HaltReason) : (s.halt r).pc = s.pc := rfl
@[simp] theorem State.halt_fl (s : State) (r : HaltReason) : (s.halt r).fl = s.fl := rfl
@[simp] theorem State.halt_run (s : State) (r : HaltReason) : (s.halt r).run = .halted r := rfl
@[simp] theorem State.halt_out (s : State) (r : HaltReason) : (s.halt r).out = s.out := rfl
@[simp] theorem State.halt_mem (s : State) (r : HaltReason) : (s.halt r).mem = s.mem := rfl

/-! ### takeFault -/

@[simp] theorem State.takeFault_regs (s : State) (f : SyncFault) : (s.takeFault f).regs = s.regs := rfl
@[simp] theorem State.takeFault_pc (s : State) (f : SyncFault) : (s.takeFault f).pc = s.pc := rfl
@[simp] theorem State.takeFault_fl (s : State) (f : SyncFault) : (s.takeFault f).fl = s.fl := rfl
@[simp] theorem State.takeFault_run (s : State) (f : SyncFault) : (s.takeFault f).run = .halted f.reason := rfl
@[simp] theorem State.takeFault_out (s : State) (f : SyncFault) : (s.takeFault f).out = s.out ++ f.report := rfl
@[simp] theorem State.takeFault_mem (s : State) (f : SyncFault) : (s.takeFault f).mem = s.mem := rfl

/-! ### setFlags -/

@[simp] theorem State.setFlags_regs (s : State) (f : Flags) : (s.setFlags f).regs = s.regs := rfl
@[simp] theorem State.setFlags_pc (s : State) (f : Flags) : (s.setFlags f).pc = s.pc := rfl
@[simp] theorem State.setFlags_fl (s : State) (f : Flags) : (s.setFlags f).fl = f := rfl
@[simp] theorem State.setFlags_run (s : State) (f : Flags) : (s.setFlags f).run = s.run := rfl
@[simp] theorem State.setFlags_out (s : State) (f : Flags) : (s.setFlags f).out = s.out := rfl
@[simp] theorem State.setFlags_mem (s : State) (f : Flags) : (s.setFlags f).mem = s.mem := rfl

/-! ### stackPush -/

@[simp] theorem State.stackPush_pc (s : State) (v : Byte) : (s.stackPush v).pc = s.pc := rfl
@[simp] theorem State.stackPush_fl (s : State) (v : Byte) : (s.stackPush v).fl = s.fl := rfl
@[simp] theorem State.stackPush_run (s : State) (v : Byte) : (s.stackPush v).run = s.run := rfl
@[simp] theorem State.stackPush_out (s : State) (v : Byte) : (s.stackPush v).out = s.out := rfl
@[simp] theorem State.stackPush_mem (s : State) (v : Byte) : (s.stackPush v).mem = s.mem.store s.pushAddr.toNat v := rfl

/-! ### stackPop -/

@[simp] theorem State.stackPop_fst (s : State) : s.stackPop.1 = s.memRead s.sp := rfl
@[simp] theorem State.stackPop_snd (s : State) : s.stackPop.2 = s.setSp (s.sp + 1) := rfl
/-! ### Reading a register or a memory byte after an update -/

theorem State.reg_setReg (s : State) (i j : RegIdx) (v : Byte) :
    (s.setReg i v).reg j = if j = i then v else s.reg j := by
  have : (s.setReg i v).reg j = (s.regs.set i v)[(j : Nat)] := rfl
  rw [this, Vector.getElem_set]
  by_cases h : j = i
  · subst h; simp
  · rw [if_neg (fun e => h (Fin.ext e.symm)), if_neg h]; rfl

@[simp] theorem State.reg_setReg_same (s : State) (i : RegIdx) (v : Byte) : (s.setReg i v).reg i = v := by
  rw [State.reg_setReg, if_pos rfl]

theorem State.reg_setReg_other (s : State) {i j : RegIdx} (v : Byte) (h : j ≠ i) :
    (s.setReg i v).reg j = s.reg j := by rw [State.reg_setReg, if_neg h]

theorem State.reg_setSp (s : State) (j : RegIdx) (v : Byte) :
    (s.setSp v).reg j = if j = spIdx then v else s.reg j := State.reg_setReg s spIdx j v

@[simp] theorem State.sp_setSp (s : State) (v : Byte) : (s.setSp v).sp = v := State.reg_setReg_same s spIdx v

@[simp] theorem State.reg_setPc (s : State) (a : Byte) (j : RegIdx) : (s.setPc a).reg j = s.reg j := rfl
@[simp] theorem State.reg_advance (s : State) (n : Nat) (j : RegIdx) : (s.advance n).reg j = s.reg j := rfl
@[simp] theorem State.reg_memWrite (s : State) (a v : Byte) (j : RegIdx) : (s.memWrite a v).reg j = s.reg j := rfl
@[simp] theorem State.reg_output (s : State) (e : Event) (j : RegIdx) : (s.output e).reg j = s.reg j := rfl
@[simp] theorem State.reg_halt (s : State) (r : HaltReason) (j : RegIdx) : (s.halt r).reg j = s.reg j := rfl
@[simp] theorem State.reg_takeFault (s : State) (f : SyncFault) (j : RegIdx) : (s.takeFault f).reg j = s.reg j := rfl
@[simp] theorem State.reg_setFlags (s : State) (f : Flags) (j : RegIdx) : (s.setFlags f).reg j = s.reg j := rfl

/-- What StackPush does to the registers: SP is decremented, nothing else changes. -/
theorem State.reg_stackPush (s : State) (v : Byte) (j : RegIdx) :
    (s.stackPush v).reg j = if j = spIdx then s.pushAddr else s.reg j := State.reg_setReg s spIdx j _

theorem State.memRead_memWrite (s : State) (a b v : Byte) :
    (s.memWrite a v).memRead b = if b = a then v else s.memRead b := Memory.read_store s.mem a b v

/-- What StackPush does to memory: the byte at the new SP is the pushed byte, nothing else changes. -/
theorem State.memRead_stackPush (s : State) (v b : Byte) :
    (s.stackPush v).memRead b = if b = s.pushAddr then v else s.memRead b := Memory.read_store s.mem _ b v

@[simp] theorem State.memRead_setReg (s : State) (i : RegIdx) (v a : Byte) : (s.setReg i v).memRead a = s.memRead a := rfl
@[simp] theorem State.memRead_setSp (s : State) (v a : Byte) : (s.setSp v).memRead a = s.memRead a := rfl
@[simp] theorem State.memRead_setPc (s : State) (b a : Byte) : (s.setPc b).memRead a = s.memRead a := rfl
@[simp] theorem State.memRead_advance (s : State) (n : Nat) (a : Byte) : (s.advance n).memRead a = s.memRead a := rfl
@[simp] theorem State.memRead_output (s : State) (e : Event) (a : Byte) : (s.output e).memRead a = s.memRead a := rfl
@[simp] theorem State.memRead_halt (s : State) (r : HaltReason) (a : Byte) : (s.halt r).memRead a = s.memRead a := rfl
@[simp] theorem State.memRead_takeFault (s : State) (f : SyncFault) (a : Byte) : (s.takeFault f).memRead a = s.memRead a := rfl
@[simp] theorem State.memRead_setFlags (s : State) (f : Flags) (a : Byte) : (s.setFlags f).memRead a = s.memRead a := rfl

end Sys2Proof.Machine
end

