-- ==== Sys2Proof/Laws/Ops.lean ====
section
/-! SUPPORT. One lemma per shared operation of the meanings, saying all it can do: the register check, the ALU
instructions' shape, the conditional jump. -/

namespace Sys2Proof.Machine

variable {b : Byte} {s t : State} {go : RegIdx → Host.Outcome State Fault Refusal}

theorem regIndex?_of_lt (h : b.toNat < 8) : regIndex? b = some ⟨b.toNat, h⟩ := dif_pos h

theorem regIndex?_of_ge (h : 8 ≤ b.toNat) : regIndex? b = none := dif_neg (Nat.not_lt.mpr h)

/-- An operand byte that names a register: the instruction goes on with that register. -/
theorem checkReg_of_lt (h : b.toNat < 8) : checkReg b s go = go ⟨b.toNat, h⟩ := by
  rw [checkReg, regIndex?_of_lt h]

/-- An operand byte that names none: IllegalRegister, and nothing else. -/
theorem checkReg_of_ge (h : 8 ≤ b.toNat) : checkReg b s go = .next (s.takeFault (.illegalRegister b)) := by
  rw [checkReg, regIndex?_of_ge h]

/-- All the register check can answer. -/
theorem checkReg_cases (b : Byte) (s : State) (go : RegIdx → Host.Outcome State Fault Refusal) :
    (∃ h : b.toNat < 8, checkReg b s go = go ⟨b.toNat, h⟩) ∨
    (8 ≤ b.toNat ∧ checkReg b s go = .next (s.takeFault (.illegalRegister b))) := by
  rcases Nat.lt_or_ge b.toNat 8 with h | h
  · exact .inl ⟨h, checkReg_of_lt h⟩
  · exact .inr ⟨h, checkReg_of_ge h⟩

/-- All a next state after the register check can be. -/
theorem checkReg_next (h : checkReg b s go = .next t) :
    (∃ hb : b.toNat < 8, go ⟨b.toNat, hb⟩ = .next t) ∨
    (8 ≤ b.toNat ∧ t = s.takeFault (.illegalRegister b)) := by
  rcases checkReg_cases b s go with ⟨hb, e⟩ | ⟨hb, e⟩
  · exact .inl ⟨hb, e ▸ h⟩
  · exact .inr ⟨hb, by injection e.symm.trans h with e; exact e.symm⟩

/-- An ALU instruction both of whose operands name registers. -/
theorem execAlu_of_lt {op : AluOp} {n : Nat} {a b : Byte} (ha : a.toNat < 8) (hb : b.toNat < 8) :
    execAlu op n a b s =
      .next ((s.writeAlu ⟨a.toNat, ha⟩ (alu op (s.reg ⟨a.toNat, ha⟩) (s.reg ⟨b.toNat, hb⟩))).advance n) := by
  rw [execAlu, checkReg_of_lt ha, checkReg_of_lt hb]

end Sys2Proof.Machine
end

