-- ==== Sys2Proof/Laws/Exec.lean ====
section
/-! SUPPORT. All the execution of an instruction can do, said once: one case per instruction whose register operands
all name registers, and the register fault. -/

namespace Sys2Proof.Machine

variable {s t : State} {i : Instr}

/-- The effect of an instruction from state `s`: what a next state of `exec` can be. -/
inductive Effect (s : State) : Instr → State → Prop
  | fault (i : Instr) (b : Byte) (hi : i.firstIllegal? = some b) : Effect s i (s.takeFault (.illegalRegister b))
  | hlt : Effect s .hlt ((s.halt .hlt).advance 0)
  | ldi (r imm : Byte) (h : r.toNat < 8) : Effect s (.ldi r imm) ((s.setReg ⟨r.toNat, h⟩ imm).advance 2)
  | prn (r : Byte) (h : r.toNat < 8) : Effect s (.prn r) ((s.output (.print (s.reg ⟨r.toNat, h⟩))).advance 1)
  | mul (a b : Byte) (ha : a.toNat < 8) (hb : b.toNat < 8) : Effect s (.mul a b)
      ((s.setReg ⟨a.toNat, ha⟩
        (BitVec.ofNat 8 ((s.reg ⟨a.toNat, ha⟩).toNat * (s.reg ⟨b.toNat, hb⟩).toNat))).advance 2)
  | add (a b : Byte) (ha : a.toNat < 8) (hb : b.toNat < 8) : Effect s (.add a b)
      ((s.setReg ⟨a.toNat, ha⟩
        (BitVec.ofNat 8 ((s.reg ⟨a.toNat, ha⟩).toNat + (s.reg ⟨b.toNat, hb⟩).toNat))).advance 2)
  | push (r : Byte) (h : r.toNat < 8) : Effect s (.push r) ((s.stackPush (s.reg ⟨r.toNat, h⟩)).advance 1)
  | pop (r : Byte) (h : r.toNat < 8) : Effect s (.pop r)
      (((s.setSp (s.sp + 1)).setReg ⟨r.toNat, h⟩ (s.memRead s.sp)).advance 1)
  | call (r : Byte) (h : r.toNat < 8) : Effect s (.call r) ((s.stackPush (s.pc + 2)).setPc (s.reg ⟨r.toNat, h⟩))
  | ret : Effect s .ret ((s.setSp (s.sp + 1)).setPc (s.memRead s.sp))
  | cmp (a b : Byte) (ha : a.toNat < 8) (hb : b.toNat < 8) : Effect s (.cmp a b)
      ((s.setFlags (compareFlags (s.reg ⟨a.toNat, ha⟩) (s.reg ⟨b.toNat, hb⟩))).advance 2)
  | jmp (r : Byte) (h : r.toNat < 8) : Effect s (.jmp r) (s.setPc (s.reg ⟨r.toNat, h⟩))
  | jeqTaken (r : Byte) (h : r.toNat < 8) (hf : s.fl.e = true) :
      Effect s (.jeq r) (s.setPc (s.reg ⟨r.toNat, h⟩))
  | jeqNot (r : Byte) (h : r.toNat < 8) (hf : s.fl.e = false) : Effect s (.jeq r) (s.advance 1)
  | jneTaken (r : Byte) (h : r.toNat < 8) (hf : s.fl.e = false) :
      Effect s (.jne r) (s.setPc (s.reg ⟨r.toNat, h⟩))
  | jneNot (r : Byte) (h : r.toNat < 8) (hf : s.fl.e = true) : Effect s (.jne r) (s.advance 1)

theorem firstIllegal?_one {r : Byte} (h : 8 ≤ r.toNat) (rs : List Byte) :
    (r :: rs).find? (fun b => !isRegByte b) = some r := by
  simp [isRegByte, Nat.not_lt.mpr h]

theorem firstIllegal?_skip {r : Byte} (h : r.toNat < 8) (rs : List Byte) :
    (r :: rs).find? (fun b => !isRegByte b) = rs.find? (fun b => !isRegByte b) := by
  simp [isRegByte, h]

/-- A one-register instruction that answers a next state has that state as an effect, if its own part has. -/
theorem Effect.of_checkReg {b : Byte} {go : RegIdx → Host.Outcome State Fault Refusal}
    (hi : i.regOperands = [b]) (h : checkReg b s go = .next t)
    (hgo : ∀ hb : b.toNat < 8, go ⟨b.toNat, hb⟩ = .next t → Effect s i t) : Effect s i t := by
  rcases checkReg_next h with ⟨hb, e⟩ | ⟨hb, e⟩
  · exact hgo hb e
  · subst e; exact .fault i b (by rw [Instr.firstIllegal?, hi, firstIllegal?_one hb])

/-- The same for a two-register instruction; operandA is checked first. -/
theorem Effect.of_execAlu {op : AluOp} {n : Nat} {a b : Byte} (hi : i.regOperands = [a, b])
    (h : execAlu op n a b s = .next t)
    (hgo : ∀ (ha : a.toNat < 8) (hb : b.toNat < 8),
      (s.writeAlu ⟨a.toNat, ha⟩ (alu op (s.reg ⟨a.toNat, ha⟩) (s.reg ⟨b.toNat, hb⟩))).advance n = t →
      Effect s i t) : Effect s i t := by
  rcases checkReg_next h with ⟨ha, e⟩ | ⟨ha, e⟩
  · rcases checkReg_next e with ⟨hb, e⟩ | ⟨hb, e⟩
    · injection e with e; exact hgo ha hb e
    · subst e
      exact .fault i b (by rw [Instr.firstIllegal?, hi, firstIllegal?_skip ha, firstIllegal?_one hb])
  · subst e; exact .fault i a (by rw [Instr.firstIllegal?, hi, firstIllegal?_one ha])

/-- Every next state of `exec` is an effect of its instruction. -/
theorem effect_of_exec (h : exec i s = .next t) : Effect s i t := by
  cases i with
  | hlt => injection h with h; subst h; exact .hlt
  | ret => injection h with h; subst h; exact .ret
  | ldi r imm => exact .of_checkReg rfl h fun hr e => by injection e with e; subst e; exact .ldi r imm hr
  | prn r => exact .of_checkReg rfl h fun hr e => by injection e with e; subst e; exact .prn r hr
  | push r => exact .of_checkReg rfl h fun hr e => by injection e with e; subst e; exact .push r hr
  | pop r => exact .of_checkReg rfl h fun hr e => by injection e with e; subst e; exact .pop r hr
  | call r => exact .of_checkReg rfl h fun hr e => by injection e with e; subst e; exact .call r hr
  | jmp r => exact .of_checkReg rfl h fun hr e => by injection e with e; subst e; exact .jmp r hr
  | mul a b => exact .of_execAlu rfl h fun ha hb e => by subst e; exact .mul a b ha hb
  | add a b => exact .of_execAlu rfl h fun ha hb e => by subst e; exact .add a b ha hb
  | cmp a b => exact .of_execAlu rfl h fun ha hb e => by subst e; exact .cmp a b ha hb
  | jeq r =>
    refine .of_checkReg rfl h fun hr e => ?_
    injection e with e; subst e
    rcases hf : s.fl.e with _ | _
    · exact .jeqNot r hr hf
    · exact .jeqTaken r hr hf
  | jne r =>
    refine .of_checkReg rfl h fun hr e => ?_
    injection e with e; subst e
    rcases hf : s.fl.e with _ | _
    · exact .jneTaken r hr hf
    · exact .jneNot r hr hf

end Sys2Proof.Machine
end

