-- ==== Sys2Proof/Laws/Step.lean ====
section
/-! SUPPORT. All one tick can do, said once. -/

namespace Sys2Proof.Machine

variable {om : OpcodeMap} {s t : State}

/-- The three cases of a tick: halted, unknown opcode, an instruction. -/
theorem stepWith_cases (om : OpcodeMap) (s : State) :
    (∃ r, s.run = .halted r ∧ stepWith om s = .next s) ∨
    (s.run = .running ∧ (∀ m, om m ≠ s.fetch.opcode) ∧
      stepWith om s = .next (s.takeFault (.unknownOpcode s.fetch.opcode))) ∨
    (s.run = .running ∧ ∃ m, om m = s.fetch.opcode ∧
      stepWith om s = exec (m.withOperands s.fetch.operandA s.fetch.operandB) s) := by
  rcases hr : s.run with _ | r
  · rcases decode_cases om s.fetch.opcode s.fetch.operandA s.fetch.operandB with ⟨m, hm, hd⟩ | ⟨hm, hd⟩
    · exact .inr (.inr ⟨rfl, m, hm, by simp only [stepWith, hr, hd]⟩)
    · exact .inr (.inl ⟨rfl, hm, by simp only [stepWith, hr, hd]⟩)
  · exact .inl ⟨r, rfl, by simp only [stepWith, hr]⟩

/-- The transactions of a tick in the same three cases. -/
theorem stepAccesses_cases (om : OpcodeMap) (s : State) :
    (∃ r, s.run = .halted r ∧ s.stepAccesses om = []) ∨
    (s.run = .running ∧ (∀ m, om m ≠ s.fetch.opcode) ∧ s.stepAccesses om = s.fetchAccesses) ∨
    (s.run = .running ∧ ∃ m, om m = s.fetch.opcode ∧
      s.stepAccesses om =
        s.fetchAccesses ++ instrAccesses (m.withOperands s.fetch.operandA s.fetch.operandB) s) := by
  rcases hr : s.run with _ | r
  · rcases decode_cases om s.fetch.opcode s.fetch.operandA s.fetch.operandB with ⟨m, hm, hd⟩ | ⟨hm, hd⟩
    · exact .inr (.inr ⟨rfl, m, hm, by simp only [State.stepAccesses, hr, hd]⟩)
    · exact .inr (.inl ⟨rfl, hm, by simp only [State.stepAccesses, hr, hd]⟩)
  · exact .inl ⟨r, rfl, by simp only [State.stepAccesses, hr]⟩

end Sys2Proof.Machine
end

