-- ==== Sys2Proof/Tests/Slice0.lean ====
section
/-! SUPPORT. Tests of the model: words and vectors taken from the spec (95_test_vectors.md, 30_encoding.md R78), and a
witness for the hypotheses of every statement that has some. -/

namespace Sys2Proof.Tests

open Sys2Proof.Machine

/-! ## Helpers -/

/-- A running state with these registers, pc, flags and memory bytes. -/
def st (regs : Vector Byte 8) (pc : Byte) (fl : Flags) (mem : Memory) : State :=
  { State.reset with regs := regs, pc := pc, fl := fl, mem := mem }

/-- The flags of a byte 0b00000LGE. -/
def fl (b : Byte) : Flags := Flags.ofByte b

/-- A next state with this property. -/
def nextIs (o : Host.Outcome State Fault Refusal) (p : State → Bool) : Bool :=
  match o with
  | .next t => p t
  | .fault _ => false
  | .refused _ => false

/-- The machine about to run these bits from reset registers but x0 = a, x1 = b. -/
def ab (a b : Byte) (nbits w : Nat) : State :=
  (st #v[a, b, 0, 0, 0, 0, 0, 0xF4] 0 (fl 0) []).withFetchWord nbits w

/-! ## WellFormed: an ill-formed term for each check -/

theorem test_wf_ldi_reg8 : (Instr.ldi 8 0).wellFormed = false := by decide
theorem test_wf_ldi_any_immediate : (Instr.ldi 7 255).wellFormed = true := by decide
theorem test_wf_prn_reg200 : (Instr.prn 200).wellFormed = false := by decide
theorem test_wf_mul_second : (Instr.mul 0 8).wellFormed = false := by decide
theorem test_wf_add_first : (Instr.add 9 0).wellFormed = false := by decide
theorem test_wf_cmp_both : (Instr.cmp 8 255).wellFormed = false := by decide
theorem test_wf_push_reg8 : (Instr.push 8).wellFormed = false := by decide
theorem test_wf_pop_reg8 : (Instr.pop 8).wellFormed = false := by decide
theorem test_wf_call_reg12 : (Instr.call 12).wellFormed = false := by decide
theorem test_wf_jmp_reg8 : (Instr.jmp 8).wellFormed = false := by decide
theorem test_wf_jeq_reg9 : (Instr.jeq 9).wellFormed = false := by decide
theorem test_wf_jne_reg128 : (Instr.jne 128).wellFormed = false := by decide
/-- 60_exceptions.md R164: in ADD R9,R10 the fault is IllegalRegister(9). -/
theorem test_firstIllegal_operandA_first : (Instr.add 9 10).firstIllegal? = some 9 := by decide

/-! ## Decode: every constructor's bytes, written out from R73 and R78 -/

theorem test_decode_hlt : decode defaultOpcodeMap 0b00000001 0xAA 0xBB = .ok .hlt := rfl
theorem test_decode_ldi : decode defaultOpcodeMap 0b10011001 0b00000000 0b00001000 = .ok (.ldi 0 8) := rfl
theorem test_decode_prn : decode defaultOpcodeMap 0b01000011 0b00000101 0xBB = .ok (.prn 5) := rfl
theorem test_decode_mul : decode defaultOpcodeMap 0b10101010 0b00000010 0b00000011 = .ok (.mul 2 3) := rfl
theorem test_decode_add : decode defaultOpcodeMap 0b10101000 0b00000111 0b00000001 = .ok (.add 7 1) := rfl
theorem test_decode_push : decode defaultOpcodeMap 0b01001101 0b00000010 0xBB = .ok (.push 2) := rfl
theorem test_decode_pop : decode defaultOpcodeMap 0b01001100 0b00000011 0xBB = .ok (.pop 3) := rfl
theorem test_decode_call : decode defaultOpcodeMap 0b01001000 0b00000010 0xBB = .ok (.call 2) := rfl
theorem test_decode_ret : decode defaultOpcodeMap 0b00001001 0xAA 0xBB = .ok .ret := rfl
theorem test_decode_cmp : decode defaultOpcodeMap 0b10100000 0b00000001 0b00000000 = .ok (.cmp 1 0) := rfl
theorem test_decode_jmp : decode defaultOpcodeMap 0b01010000 0b00000001 0xBB = .ok (.jmp 1) := rfl
theorem test_decode_jeq : decode defaultOpcodeMap 0b01010001 0b00000010 0xBB = .ok (.jeq 2) := rfl
theorem test_decode_jne : decode defaultOpcodeMap 0b01010010 0b00000011 0xBB = .ok (.jne 3) := rfl
theorem test_decode_unknown_names_the_byte :
    decode defaultOpcodeMap 0b11000000 0x01 0x02 = .error (.unknownOpcode 0xC0) := rfl
/-- D2: the byte 0xA0 is CMP in the default map and ADD in the second. -/
theorem test_decode_second_map : decode secondOpcodeMap 0xA0 0x00 0x01 = .ok (.add 0 1) := rfl
theorem test_encode_cmp : encode defaultOpcodeMap (.cmp 0 1) = [0xA0, 0x00, 0x01] := rfl
/-- 30_encoding.md R80. -/
theorem test_asm_ldi : (Instr.ldi 0 8).toAsm = "LDI R0,8" := by decide
theorem test_asm_mul : (Instr.mul 0 1).toAsm = "MUL R0,R1" := by decide

/-! ## One step: vectors of 95_test_vectors.md -/

/-- V-LDI 4: LDI at 0xFE takes its operands from 0xFF and 0x00. -/
theorem test_step_ldi_wraps :
    nextIs (step (st (.replicate 8 0) 0xFE (fl 0) [(0x00, 0x2A), (0xFE, 0x99), (0xFF, 0x02)]))
      (fun t => t.reg 2 == 0x2A && t.pc == 0x01) = true := by decide
/-- V-LDI 5. -/
theorem test_step_ldi_illegal : nextIs (step (ab 0 0 24 0x010899))
    (fun t => t.run == .halted (.illegalRegister 8) && t.pc == 0x00) = true := by decide
/-- V-PRN 3, with R0: an unsigned byte. -/
theorem test_step_prn : nextIs (step (ab 0xFF 0 16 0x0043))
    (fun t => t.out == [.print 255] && t.pc == 0x02) = true := by decide
theorem test_print_renders_decimal : (Event.print 0x48).rendered? = some "72" := by decide
/-- V-MUL 3. -/
theorem test_step_mul_wraps : nextIs (step (ab 0xFF 0xFF 24 0x0100AA)) (fun t => t.reg 0 == 0x01) = true := by decide
/-- V-MUL 6: source and destination the same. -/
theorem test_step_mul_squares : nextIs (step (ab 0 0x0F 24 0x0101AA)) (fun t => t.reg 1 == 0xE1) = true := by decide
/-- V-ADD 1. -/
theorem test_step_add_wraps : nextIs (step (ab 0xC8 0x64 24 0x0100A8))
    (fun t => t.reg 0 == 0x2C && t.reg 1 == 0x64) = true := by decide
/-- V-ADD 8. -/
theorem test_step_add_illegal : nextIs (step (ab 0 0 24 0x0A09A8))
    (fun t => t.run == .halted (.illegalRegister 9)) = true := by decide
/-- V-STK 3. -/
theorem test_exec_push_wraps : nextIs (exec (.push 2) (st #v[0, 0, 0x77, 0, 0, 0, 0, 0x00] 0 (fl 0) []))
    (fun t => t.sp == 0xFF && t.mem == [(0xFF, 0x77)]) = true := by decide
/-- V-STK 5: PUSH R7 pushes the old SP. -/
theorem test_step_push_sp : nextIs (step (ab 0 0 16 0x074D))
    (fun t => t.sp == 0xF3 && t.memRead 0xF3 == 0xF4) = true := by decide
/-- V-STK 4. -/
theorem test_exec_pop_wraps : nextIs (exec (.pop 3) (st #v[0, 0, 0, 0, 0, 0, 0, 0xFF] 0 (fl 0) [(0xFF, 0x77)]))
    (fun t => t.reg 3 == 0x77 && t.sp == 0x00) = true := by decide
/-- V-STK 6: POP R7 keeps the popped byte. -/
theorem test_exec_pop_sp : nextIs (exec (.pop 7) (st #v[0, 0, 0, 0, 0, 0, 0, 0xF3] 0 (fl 0) [(0xF3, 0x50)]))
    (fun t => t.sp == 0x50) = true := by decide
/-- V-CALL 1. -/
theorem test_exec_call : nextIs (exec (.call 2) (st #v[0, 0, 0x40, 0, 0, 0, 0, 0xF4] 0x20 (fl 0) []))
    (fun t => t.memRead 0xF3 == 0x22 && t.sp == 0xF3 && t.pc == 0x40) = true := by decide
/-- V-CALL 4: CALL R7 jumps to the old SP. -/
theorem test_exec_call_sp : nextIs (exec (.call 7) (st #v[0, 0, 0, 0, 0, 0, 0, 0xF4] 0x30 (fl 0) []))
    (fun t => t.memRead 0xF3 == 0x32 && t.pc == 0xF4) = true := by decide
/-- V-CALL 2. -/
theorem test_exec_ret : nextIs (exec .ret (st #v[0, 0, 0, 0, 0, 0, 0, 0xF3] 0x17 (fl 0) [(0xF3, 0x22)]))
    (fun t => t.pc == 0x22 && t.sp == 0xF4) = true := by decide
/-- V-CMP 6: unsigned. -/
theorem test_step_cmp_unsigned : nextIs (step (ab 0x80 0x7F 24 0x0100A0)) (fun t => t.fl.toByte == 0x02) = true := by
  decide
/-- V-CMP 10: the indices differ, the values do not. -/
theorem test_step_cmp_values : nextIs (step (ab 0 0 24 0x0001A0)) (fun t => t.fl.toByte == 0x01) = true := by decide
/-- V-JMP 1. -/
theorem test_exec_jmp : nextIs (exec (.jmp 1) (st #v[0, 0x30, 0, 0, 0, 0, 0, 0xF4] 0x04 (fl 0) []))
    (fun t => t.pc == 0x30) = true := by decide
/-- V-JMP 3. -/
theorem test_exec_jeq_taken : nextIs (exec (.jeq 2) (st #v[0, 0, 0x0F, 0, 0, 0, 0, 0xF4] 0x0C (fl 1) []))
    (fun t => t.pc == 0x0F) = true := by decide
/-- V-JMP 11: checked although not taken. -/
theorem test_step_jeq_illegal : nextIs (step (ab 0 0 16 0x0951))
    (fun t => t.run == .halted (.illegalRegister 9) && t.pc == 0x00) = true := by decide
/-- V-JMP 6. -/
theorem test_exec_jne_not_taken : nextIs (exec (.jne 3) (st #v[0, 0, 0, 0x0C, 0, 0, 0, 0xF4] 0x14 (fl 1) []))
    (fun t => t.pc == 0x16) = true := by decide
/-- V-JMP 8. -/
theorem test_exec_jne_taken : nextIs (exec (.jne 3) (st #v[0, 0, 0, 0x0C, 0, 0, 0, 0xF4] 0x14 (fl 2) []))
    (fun t => t.pc == 0x0C) = true := by decide
/-- V-HLT 2. -/
theorem test_exec_hlt_wraps : nextIs (exec .hlt (st (.replicate 8 0) 0xFF (fl 0) []))
    (fun t => t.run == .halted .hlt && t.pc == 0x00) = true := by decide
/-- V-HLT 6: an unknown opcode wins over bad operand bytes. -/
theorem test_step_unknown : nextIs (step (State.reset.withFetchWord 24 0x090902))
    (fun t => t.out == [.unknown 2] && t.run == .halted (.unknownOpcode 2) && t.pc == 0x00) = true := by decide
/-- V-HLT 7. -/
theorem test_step_halted : step (State.reset.halt .hlt) = .next (State.reset.halt .hlt) := rfl
/-- The 8-bit table word of RET, operand bytes zero, runs as the first instruction after reset. -/
theorem test_reset_fetch_ret : step (State.reset.withFetchWord 8 0x09) = exec .ret (State.reset.withFetchWord 8 0x09) :=
  rfl

/-! ## Witnesses: states and operands that meet the hypotheses of the statements -/

/-- A halted state. -/
def stopped : State := State.reset.halt .stopped

theorem witness_StopInputHaltsOnlyARunningCore : State.reset.run = .running ∧ stopped.run = .halted .stopped := ⟨rfl, rfl⟩
theorem witness_HaltedIsTerminalUntilReset : stopped.run = .halted .stopped ∧
    HostInput.reset ∉ [HostInput.tick, .stop, .poke 0 1] ∧ ∀ a v, HostInput.poke a v ∉ [HostInput.tick, .stop] :=
  ⟨rfl, by decide, by simp⟩
/-! The one-register statements: both clauses, at the boundary of a register operand. -/

theorem witness_LdiLoadsTheImmediate : (7 : Byte).toNat < 8 ∧ 8 ≤ (8 : Byte).toNat := by decide
theorem witness_PrnOutputsTheRegister : (7 : Byte).toNat < 8 ∧ 8 ≤ (8 : Byte).toNat := by decide
theorem witness_PushStoresBelowSp : (7 : Byte).toNat < 8 ∧ 8 ≤ (8 : Byte).toNat := by decide
/-- Also the clauses for R7 and for another register. -/
theorem witness_PopLoadsFromSp : ((7 : Byte).toNat < 8 ∧ (7 : Byte).toNat = 7) ∧
    ((6 : Byte).toNat < 8 ∧ (6 : Byte).toNat ≠ 7) ∧ 8 ≤ (8 : Byte).toNat := by decide
theorem witness_CallPushesPcPlusTwoAndJumps : (7 : Byte).toNat < 8 ∧ 8 ≤ (8 : Byte).toNat := by decide
theorem witness_JmpJumpsToTheRegister : (7 : Byte).toNat < 8 ∧ 8 ≤ (8 : Byte).toNat := by decide
theorem witness_JeqJumpsIfEqual : (7 : Byte).toNat < 8 ∧ 8 ≤ (8 : Byte).toNat ∧ (fl 1).e = true ∧ (fl 4).e = false := by
  decide
theorem witness_JneJumpsIfNotEqual : (7 : Byte).toNat < 8 ∧ 8 ≤ (8 : Byte).toNat ∧ (fl 1).e = true ∧ (fl 4).e = false := by
  decide
/-- The three clauses of the ALU statements: both legal, the first illegal, only the second illegal. -/
theorem witness_AddWritesTheSumModulo256 :
    ((7 : Byte).toNat < 8 ∧ (0 : Byte).toNat < 8) ∧ 8 ≤ (8 : Byte).toNat ∧ ((7 : Byte).toNat < 8 ∧ 8 ≤ (255 : Byte).toNat) := by
  decide
theorem witness_MulWritesTheProductModulo256 :
    ((7 : Byte).toNat < 8 ∧ (0 : Byte).toNat < 8) ∧ 8 ≤ (8 : Byte).toNat ∧ ((7 : Byte).toNat < 8 ∧ 8 ≤ (255 : Byte).toNat) := by
  decide
theorem witness_CmpSetsExactlyOneFlag :
    ((7 : Byte).toNat < 8 ∧ (0 : Byte).toNat < 8) ∧ 8 ≤ (8 : Byte).toNat ∧ ((7 : Byte).toNat < 8 ∧ 8 ≤ (255 : Byte).toNat) := by
  decide
/-- Different registers in different states with the same values. -/
theorem witness_CmpComparesValuesNotIndices :
    State.reset.reg ⟨(0 : Byte).toNat, by decide⟩ = stopped.reg ⟨(6 : Byte).toNat, by decide⟩ ∧
    State.reset.reg ⟨(7 : Byte).toNat, by decide⟩ = stopped.reg ⟨(7 : Byte).toNat, by decide⟩ := by decide
theorem witness_FlagBitsAreIndependentlySetAndCleared : FlagBit.G ≠ FlagBit.E := by decide
theorem witness_FlagsByteHasLayoutLGE : 3 ≤ 3 := by decide
/-- An instruction that is no CMP, with a next state. -/
theorem witness_OnlyCmpWritesFlags : (∃ t, exec .ret State.reset = .next t) ∧ ∀ a b, Instr.ret ≠ .cmp a b :=
  ⟨⟨_, rfl⟩, by simp⟩
theorem witness_PushThenPopRestoresEveryRegister : (7 : Byte).toNat < 8 := by decide
theorem witness_StackWrapsAtBothEnds : (6 : Byte).toNat < 8 ∧ (6 : Byte).toNat ≠ 7 ∧
    (State.reset.setSp 0x00).sp = 0x00 ∧ (State.reset.setSp 0xFF).sp = 0xFF := by decide
/-- The callee that does nothing: the state CALL leaves. -/
theorem witness_RetReturnsBehindItsCall : ∃ t, exec (.call 0) State.reset = .next t ∧
    ∃ u : State, u.sp = t.sp ∧ u.memRead t.sp = t.memRead t.sp := ⟨_, rfl, _, rfl, rfl⟩
/-- Equal values, and different ones. -/
theorem witness_JeqAndJneAreComplementaryAfterCmp :
    State.reset.reg ⟨(0 : Byte).toNat, by decide⟩ = State.reset.reg ⟨(1 : Byte).toNat, by decide⟩ ∧
    State.reset.reg ⟨(0 : Byte).toNat, by decide⟩ ≠ State.reset.reg ⟨(7 : Byte).toNat, by decide⟩ := by decide
/-- V-JMP 2: JMP R0 at 0x10 with x0 = 0x10. -/
def loop : State := st #v[0x10, 0, 0, 0, 0, 0, 0, 0xF4] 0x10 (fl 0) [(0x10, 0x50), (0x11, 0x00)]

theorem witness_JmpToItselfNeverHalts : loop.run = .running ∧
    decode defaultOpcodeMap (loop.memRead loop.pc) (loop.memRead (loop.pc + 1)) (loop.memRead (loop.pc + 2)) = .ok (.jmp 0) ∧
    loop.reg ⟨(0 : Byte).toNat, by decide⟩ = loop.pc := ⟨rfl, rfl, rfl⟩
theorem witness_FirstIllegalRegisterHaltsBeforeAnyEffect :
    (Instr.add 7 8).firstIllegal? = some 8 ∧ (Instr.jeq 255).firstIllegal? = some 255 := by decide

/-- A state whose opcode byte is unknown. -/
def bad : State := State.reset.withFetchWord 8 0xFF

theorem witness_UnknownOpcodeIsReportedAndHalts : bad.run = .running ∧ ∀ m, defaultOpcodeMap m ≠ bad.memRead bad.pc :=
  ⟨rfl, fun m => by cases m <;> decide⟩
theorem witness_UnknownOpcodeChangesOnlyRunAndOut : bad.run = .running ∧ ∀ m, defaultOpcodeMap m ≠ bad.memRead bad.pc :=
  witness_UnknownOpcodeIsReportedAndHalts
/-- Both faults, as the end of a tick. -/
theorem witness_FaultsArePrecise : bad.run = .running ∧
    (∃ t, stepWith defaultOpcodeMap bad = .next t ∧ t.run = .halted (SyncFault.unknownOpcode 0xFF).reason) ∧
    ∃ t, stepWith defaultOpcodeMap (ab 0 0 24 0x010899) = .next t ∧ t.run = .halted (SyncFault.illegalRegister 8).reason :=
  ⟨rfl, ⟨_, rfl, rfl⟩, ⟨_, rfl, rfl⟩⟩

/-- A state about to execute LDI R7,255. -/
def good : State := State.reset.withFetchWord 24 0xFF0799

theorem witness_WellFormedInstructionDoesNotFault : good.run = .running ∧
    decode defaultOpcodeMap (good.memRead good.pc) (good.memRead (good.pc + 1)) (good.memRead (good.pc + 2)) = .ok (.ldi 7 255) ∧
    (Instr.ldi 7 255).wellFormed = true := ⟨rfl, rfl, rfl⟩
/-- Each of the four causes. -/
theorem witness_HaltHasOneOfFourCauses :
    (∃ t, State.input defaultOpcodeMap (State.reset.withFetchWord 8 0x01) .tick = .next t ∧ t.run = .halted .hlt) ∧
    (∃ t, State.input defaultOpcodeMap bad .tick = .next t ∧ t.run = .halted (.unknownOpcode 0xFF)) ∧
    (∃ t, State.input defaultOpcodeMap (ab 0 0 24 0x010899) .tick = .next t ∧ t.run = .halted (.illegalRegister 8)) ∧
    (∃ t, State.input defaultOpcodeMap State.reset .stop = .next t ∧ t.run = .halted .stopped) :=
  ⟨⟨_, rfl, rfl⟩, ⟨_, rfl, rfl⟩, ⟨_, rfl, rfl⟩, ⟨_, rfl, rfl⟩⟩
/-- A legal map, and bytes of each length; used by every statement about legal maps. -/
theorem witness_DecodeOfEncodeUnderEveryLegalMap : LegalMap secondOpcodeMap ∧
    encode secondOpcodeMap .ret ++ [0x01, 0x02] = 0x11 :: 0x01 :: 0x02 :: [] ∧
    encode secondOpcodeMap (.jmp 255) ++ [0x01, 0x02] = 0x54 :: 0xFF :: 0x01 :: [0x02] :=
  ⟨⟨fun m m' => by cases m <;> cases m' <;> decide, fun m => by cases m <;> decide⟩, rfl, rfl⟩
theorem witness_DecodedBytesAreTheEncoding : decode defaultOpcodeMap 0x09 0x55 0x66 = .ok .ret := rfl
/-- An instruction of each length whose pc advances (HLT, PRN, LDI), its opcode before two pairs of operand bytes, and the
advance at the top of memory. -/
theorem witness_OpcodeTopBitsGiveLengthAndAdvance : LegalMap secondOpcodeMap ∧
    (decode secondOpcodeMap 0x01 0x00 0x01 = .ok .hlt ∧ decode secondOpcodeMap 0x01 0xFF 0x06 = .ok .hlt ∧
      Instr.hlt.wellFormed = true ∧ instrTakes .hlt (State.reset.setPc 0xFF) = false ∧
      ∃ t, exec .hlt (State.reset.setPc 0xFF) = .next t ∧ t.pc = 0x00) ∧
    (decode secondOpcodeMap 0x47 0x00 0x01 = .ok (.prn 0) ∧ decode secondOpcodeMap 0x47 0x05 0x06 = .ok (.prn 5) ∧
      (Instr.prn 0).wellFormed = true ∧ instrTakes (.prn 0) (State.reset.setPc 0xFF) = false ∧
      ∃ t, exec (.prn 0) (State.reset.setPc 0xFF) = .next t ∧ t.pc = 0x01) ∧
    (decode secondOpcodeMap 0x82 0x00 0x01 = .ok (.ldi 0 1) ∧ decode secondOpcodeMap 0x82 0x07 0xFF = .ok (.ldi 7 0xFF) ∧
      (Instr.ldi 0 1).wellFormed = true ∧ instrTakes (.ldi 0 1) (State.reset.setPc 0xFF) = false ∧
      ∃ t, exec (.ldi 0 1) (State.reset.setPc 0xFF) = .next t ∧ t.pc = 0x02) :=
  ⟨witness_DecodeOfEncodeUnderEveryLegalMap.1, ⟨rfl, rfl, rfl, rfl, _, rfl, rfl⟩, ⟨rfl, rfl, rfl, rfl, _, rfl, rfl⟩,
    ⟨rfl, rfl, rfl, rfl, _, rfl, rfl⟩⟩
theorem witness_TopBitsElevenAreUnknown : LegalMap secondOpcodeMap ∧ (0xC0 : Byte).toNat / 64 = 3 ∧ (0xFF : Byte).toNat / 64 = 3 :=
  ⟨witness_DecodeOfEncodeUnderEveryLegalMap.1, by decide, by decide⟩
theorem witness_FetchAlwaysReadsThreeBytes : bad.run = .running := rfl
/-- The three cases of a tick. -/
theorem witness_TickRunsTheDecodedInstruction :
    (good.run = .running ∧
      decode defaultOpcodeMap (good.memRead good.pc) (good.memRead (good.pc + 1)) (good.memRead (good.pc + 2)) = .ok (.ldi 7 255)) ∧
    (bad.run = .running ∧
      decode defaultOpcodeMap (bad.memRead bad.pc) (bad.memRead (bad.pc + 1)) (bad.memRead (bad.pc + 2)) =
        .error (.unknownOpcode 0xFF)) ∧
    stopped.run = .halted .stopped := ⟨⟨rfl, rfl⟩, ⟨rfl, rfl⟩, rfl⟩
/-- LDI R2,0x2A across the top of memory (V-LDI 4), under the second map. -/
theorem witness_TickRunsTheEncodedInstruction : LegalMap secondOpcodeMap ∧
    ∃ s : State, s.run = .running ∧ s.pc = 0xFE ∧ ∀ (k : Nat) (v : Byte),
      (encode secondOpcodeMap (.ldi 2 0x2A))[k]? = some v → s.memRead (s.pc + BitVec.ofNat 8 k) = v := by
  refine ⟨witness_DecodeOfEncodeUnderEveryLegalMap.1,
    st (.replicate 8 0) 0xFE (fl 0) [(0x00, 0x2A), (0xFE, 0x82), (0xFF, 0x02)], rfl, rfl, ?_⟩
  intro k v h
  match k with
  | 0 => cases h; rfl
  | 1 => cases h; rfl
  | 2 => cases h; rfl
  | k + 3 => cases h
/-- The clauses: an advance, a taken JMP, RET, an illegal register. -/
theorem witness_PcAdvancesUnlessTheHandlerWritesIt :
    ((Instr.jeq 7).wellFormed = true ∧ instrTakes (.jeq 7) State.reset = false ∧ ∃ t, exec (.jeq 7) State.reset = .next t) ∧
    ((Instr.jmp 7).wellFormed = true ∧ instrTakes (.jmp 7) State.reset = true ∧ ∃ t, exec (.jmp 7) State.reset = .next t) ∧
    (instrTakes .ret State.reset = true ∧ ∃ t, exec .ret State.reset = .next t) ∧
    ((Instr.jmp 8).wellFormed = false ∧ ∃ t, exec (.jmp 8) State.reset = .next t) :=
  ⟨⟨rfl, rfl, _, rfl⟩, ⟨rfl, rfl, _, rfl⟩, ⟨rfl, _, rfl⟩, ⟨rfl, _, rfl⟩⟩
theorem witness_InstructionsWriteOnlyTheirRegisters : ∃ t, exec (.pop 7) State.reset = .next t := ⟨_, rfl⟩
/-- A store, and no store for either reason. -/
theorem witness_OnlyPushAndCallStore :
    ((Instr.call 7).wellFormed = true ∧ ∃ t, exec (.call 7) State.reset = .next t) ∧
    ((∀ r, Instr.ret ≠ .push r ∧ Instr.ret ≠ .call r) ∧ ∃ t, exec .ret State.reset = .next t) ∧
    ((Instr.push 8).wellFormed = false ∧ ∃ t, exec (.push 8) State.reset = .next t) :=
  ⟨⟨rfl, _, rfl⟩, ⟨by simp, _, rfl⟩, ⟨rfl, _, rfl⟩⟩
theorem witness_MemoryChangesByTheTransactionsOfTheTick : ∃ t, stepWith defaultOpcodeMap good = .next t := ⟨_, rfl⟩
/-- A memory that agrees with the one of `good` on the fetched bytes and differs at 0x80. -/
theorem witness_TickDependsOnlyOnTheBytesItReads :
    (∀ a ∈ readAddrs (good.stepAccesses defaultOpcodeMap), Memory.read (good.mem.store 0x80 1) a = good.memRead a) ∧
    Memory.read (good.mem.store 0x80 1) 0x80 ≠ Memory.read (good.mem.store 0x80 2) 0x80 := by
  refine ⟨?_, by decide⟩
  intro a ha
  have : readAddrs (good.stepAccesses defaultOpcodeMap) = [0x00, 0x01, 0x02] := rfl
  rw [this] at ha
  simp only [List.mem_cons, List.not_mem_nil, or_false] at ha
  rcases ha with rfl | rfl | rfl <;> rfl
/-- Each clause: a PUSH into the next opcode (P6), the next operand bytes, and the same for CALL and poke. -/
theorem witness_StoresAreSeenByTheNextFetch : (7 : Byte).toNat < 8 ∧
    (∃ s t : State, exec (.push 0) s = .next t ∧ t.pc = s.sp - 1) ∧
    (∃ s t : State, exec (.push 0) s = .next t ∧ t.pc + 1 = s.sp - 1) ∧
    (∃ s t : State, exec (.push 0) s = .next t ∧ t.pc + 2 = s.sp - 1) ∧
    (∃ s t : State, exec (.call 1) s = .next t ∧ t.pc = s.sp - 1) ∧
    (∃ s t : State, exec (.call 1) s = .next t ∧ t.pc + 1 = s.sp - 1) ∧
    (∃ s t : State, exec (.call 1) s = .next t ∧ t.pc + 2 = s.sp - 1) ∧
    good.pc = 0x00 ∧ good.pc + 1 = 0x01 ∧ good.pc + 2 = 0x02 :=
  ⟨by decide,
    ⟨st #v[1, 0, 0, 0, 0, 0, 0, 9] 6 (fl 0) [], _, rfl, rfl⟩,
    ⟨st #v[1, 0, 0, 0, 0, 0, 0, 10] 6 (fl 0) [], _, rfl, rfl⟩,
    ⟨st #v[1, 0, 0, 0, 0, 0, 0, 11] 6 (fl 0) [], _, rfl, rfl⟩,
    ⟨st #v[1, 8, 0, 0, 0, 0, 0, 9] 6 (fl 0) [], _, rfl, rfl⟩,
    ⟨st #v[1, 8, 0, 0, 0, 0, 0, 10] 6 (fl 0) [], _, rfl, rfl⟩,
    ⟨st #v[1, 8, 0, 0, 0, 0, 0, 11] 6 (fl 0) [], _, rfl, rfl⟩, rfl, rfl, rfl⟩
/-- A tick for each of the three cases of the output. -/
theorem witness_TickOutputsAtMostOneEvent : (∃ t, stepWith defaultOpcodeMap good = .next t ∧ t.out = []) ∧
    (∃ t, stepWith defaultOpcodeMap (ab 5 0 16 0x0043) = .next t ∧ t.out = [.print 5]) ∧
    (∃ t, stepWith defaultOpcodeMap bad = .next t ∧ t.out = [.unknown 0xFF]) :=
  ⟨⟨_, rfl, rfl⟩, ⟨_, rfl, rfl⟩, ⟨_, rfl, rfl⟩⟩
theorem witness_OutputOnlyGrowsUntilReset : HostInput.reset ∉ [HostInput.poke 9 9, .tick, .stop] ∧
    ∃ t, State.inputs defaultOpcodeMap [.poke 9 9, .tick, .stop] (ab 5 0 16 0x0043) = .next t ∧ t.out = [.print 5] :=
  ⟨by decide, _, rfl, rfl⟩
theorem witness_InvariantHoldsAfterReset : Memory.wf [(0, 0x99), (255, 0)] = true ∧ Memory.wf [(0, 1), (0, 2)] = false ∧
    Memory.wf [(256, 0)] = false := by decide
/-- Each legal value of FL, with a next state of the step. -/
theorem witness_EveryStepKeepsTheInvariant : State.Inv good ∧ (∃ t, stepWith defaultOpcodeMap good = .next t) ∧
    (∃ t, step good = .next t) ∧ (fl 1).Legal ∧ (fl 2).Legal ∧ (fl 4).Legal ∧ ¬ (fl 3).Legal := by
  refine ⟨⟨rfl, .inl rfl⟩, ⟨_, rfl⟩, ⟨_, rfl⟩, .inr (.inl rfl), .inr (.inr (.inl rfl)), .inr (.inr (.inr rfl)), ?_⟩
  rintro (h | h | h | h) <;> revert h <;> decide
theorem witness_EveryInputSequenceKeepsTheInvariant : State.Inv good := witness_EveryStepKeepsTheInvariant.1

end Sys2Proof.Tests
end

section
/-! PROOFS. The statements of 10_state.md: Halted is terminal until reset (R30), and the bits of FL are set and cleared
one by one (R26). -/

namespace Sys2Proof.Machine

/-! ## The bits of FL -/

theorem FlagBit.number_lt (b : FlagBit) : b.number < 3 := by cases b <;> decide

theorem FlagBit.number_injective {b c : FlagBit} (h : b.number = c.number) : b = c := by
  revert h; cases b <;> cases c <;> decide

/-- A bit of FL is a named flag, or reads as zero (R27). -/
theorem FlagBit.number_or_three_le (k : Nat) : (∃ b : FlagBit, k = b.number) ∨ 3 ≤ k :=
  match k with
  | 0 => .inl ⟨.E, rfl⟩
  | 1 => .inl ⟨.G, rfl⟩
  | 2 => .inl ⟨.L, rfl⟩
  | k + 3 => .inr (Nat.le_add_left 3 k)

@[simp] theorem Flags.getLsbD_toByte_number (f : Flags) (b : FlagBit) : f.toByte.getLsbD b.number = f.get b := by
  obtain ⟨e, g, l⟩ := f
  cases b <;> cases e <;> cases g <;> cases l <;> rfl

theorem Flags.toByte_lt (f : Flags) : f.toByte.toNat < 2 ^ 3 := by
  obtain ⟨e, g, l⟩ := f
  cases e <;> cases g <;> cases l <;> decide

theorem Flags.getLsbD_toByte_of_three_le (f : Flags) {k : Nat} (hk : 3 ≤ k) : f.toByte.getLsbD k = false :=
  Nat.testBit_lt_two_pow (f.toByte_lt.trans_le (Nat.pow_le_pow_right (by decide) hk))

/-- Writing a flag changes the bit of its number in FL, and no other (R26). -/
theorem Flags.getLsbD_toByte_put (f : Flags) (b : FlagBit) (v : Bool) (k : Nat) :
    (f.put b v).toByte.getLsbD k = if k = b.number then v else f.toByte.getLsbD k := by
  rcases FlagBit.number_or_three_le k with ⟨c, rfl⟩ | hk
  · have hc : c.number = b.number ↔ c = b := ⟨FlagBit.number_injective, congrArg _⟩
    simp only [getLsbD_toByte_number, get_put, hc]
  · have hb : k ≠ b.number := (b.number_lt.trans_le hk).ne'
    rw [if_neg hb, getLsbD_toByte_of_three_le _ hk, getLsbD_toByte_of_three_le _ hk]

/-- The byte that R26 ORs in has the flag's bit alone. -/
theorem FlagBit.getLsbD_mask (b : FlagBit) (k : Nat) : ((1 : Byte) <<< b.number).getLsbD k = decide (k = b.number) := by
  have hb : b.number < 8 := b.number_lt.trans (by decide)
  change (BitVec.twoPow 8 b.number).getLsbD k = _
  rw [BitVec.getLsbD_twoPow, decide_eq_true hb, Bool.true_and, decide_eq_decide]
  exact eq_comm

theorem Flags.toByte_put_true (f : Flags) (b : FlagBit) :
    (f.put b true).toByte = f.toByte ||| ((1 : Byte) <<< b.number) := by
  refine BitVec.eq_of_getLsbD_eq fun k _ => ?_
  rw [getLsbD_toByte_put, BitVec.getLsbD_or, FlagBit.getLsbD_mask]
  by_cases h : k = b.number <;> simp [h]

theorem Flags.toByte_put_false (f : Flags) (b : FlagBit) :
    (f.put b false).toByte = f.toByte &&& ~~~((1 : Byte) <<< b.number) := by
  refine BitVec.eq_of_getLsbD_eq fun k hk => ?_
  rw [getLsbD_toByte_put, BitVec.getLsbD_and, BitVec.getLsbD_not, FlagBit.getLsbD_mask]
  by_cases h : k = b.number <;> simp [h, hk]

/-! ## Inputs to a halted core -/

variable {om : OpcodeMap} {s t : State} {r : HaltReason} {i : HostInput} {l : List HostInput}

theorem stepWith_of_halted (h : s.run = .halted r) : stepWith om s = .next s := by
  simp only [stepWith, h]

theorem State.stopInput_of_halted (h : s.run = .halted r) : s.stopInput = s := by
  simp only [State.stopInput, h]

theorem State.inputs_cons_of_next (h : s.input om i = .next t) (l : List HostInput) :
    s.inputs om (i :: l) = t.inputs om l := by
  simp only [State.inputs, h]

/-- One input but reset changes nothing of a halted core; only a poke changes memory. -/
theorem State.input_of_halted (om : OpcodeMap) (h : s.run = .halted r) (hi : i ≠ .reset) :
    ∃ m, s.input om i = .next { s with mem := m } ∧ ((∀ a v, i ≠ .poke a v) → m = s.mem) := by
  cases i with
  | tick => exact ⟨s.mem, stepWith_of_halted h, fun _ => rfl⟩
  | reset => exact absurd rfl hi
  | stop => exact ⟨s.mem, congrArg _ (stopInput_of_halted h), fun _ => rfl⟩
  | poke a v => exact ⟨s.mem.store a.toNat v, rfl, fun hp => absurd rfl (hp a v)⟩

/-- The same for every sequence of inputs without a reset, by induction on the sequence. -/
theorem State.inputs_of_halted (om : OpcodeMap) (h : s.run = .halted r) (hl : HostInput.reset ∉ l) :
    ∃ m, s.inputs om l = .next { s with mem := m } ∧ ((∀ a v, HostInput.poke a v ∉ l) → m = s.mem) := by
  induction l generalizing s with
  | nil => exact ⟨s.mem, rfl, fun _ => rfl⟩
  | cons i l ih =>
    obtain ⟨hi, hl⟩ := not_or.mp (mt List.mem_cons.mpr hl)
    obtain ⟨m, hm, hkeep⟩ := input_of_halted om h (Ne.symm hi)
    obtain ⟨m', hm', hkeep'⟩ := ih (s := { s with mem := m }) h hl
    refine ⟨m', (inputs_cons_of_next hm l).trans hm', fun hp => ?_⟩
    calc m' = m := hkeep' fun a v hav => hp a v (.tail i hav)
      _ = s.mem := hkeep fun a v e => hp a v (e ▸ .head l)

/-- Settles O3: a sequence without a reset answers the same state but for memory. -/
theorem haltedIsTerminalUntilReset : Obligations.HaltedIsTerminalUntilReset := by
  intro om s r h
  refine ⟨fun l hl => ?_, s.resetInput, rfl, rfl⟩
  obtain ⟨m, hm, hkeep⟩ := State.inputs_of_halted om h hl
  exact ⟨{ s with mem := m }, hm, rfl, fun _ => rfl, rfl, rfl, rfl, fun hp => by rw [hkeep hp]⟩

/-- Settles O11: both sides of the byte equations have the same bits. -/
theorem flagBitsAreIndependentlySetAndCleared : Obligations.FlagBitsAreIndependentlySetAndCleared := by
  intro f b
  refine ⟨f.toByte_put_true b, f.toByte_put_false b, fun v => ?_, fun v c hc => ?_⟩
  · rw [Flags.get_put, if_pos rfl]
  · rw [Flags.get_put, if_neg hc]

end Sys2Proof.Machine
end

section
/-! PROOFS. The statements of 41_data.md: LDI loads the immediate (R100, R101), PRN outputs the register (R103,
R104). -/

namespace Sys2Proof.Machine

variable {s : State} {r : Byte} {go : RegIdx → Host.Outcome State Fault Refusal}

/-! ## The advance and the register fault, as the statements of one instruction write them -/

/-- The automatic advance as a number: the opcode byte and `n` operand bytes, mod 256 (R93). -/
theorem State.toNat_advance_pc (s : State) (n : Nat) : (s.advance n).pc.toNat = (s.pc.toNat + (n + 1)) % 256 := by
  rw [advance_pc]
  bv_omega

/-- The register fault is not reported on the output port: only the run state changes (R163). -/
theorem State.takeFault_illegalRegister (s : State) (b : Byte) :
    s.takeFault (.illegalRegister b) = { s with run := .halted (.illegalRegister b) } := by
  simp only [takeFault, SyncFault.report, SyncFault.reason, List.append_nil]

/-- An operand byte that names no register halts the core before the instruction has any effect (R90, R163). -/
theorem checkReg_of_ge_halts (h : 8 ≤ r.toNat) :
    checkReg r s go = .next { s with run := .halted (.illegalRegister r) } := by
  rw [checkReg_of_ge h, State.takeFault_illegalRegister]

/-- A register write leaves every other register alone. -/
theorem State.sameRegsBut_setReg (s : State) (i : RegIdx) (v : Byte) : SameRegsBut [i] s (s.setReg i v) :=
  fun _ hj => reg_setReg_other s v fun e => hj (List.mem_singleton.mpr e)

/-! ## LDI and PRN: one equation per outcome of the register check -/

theorem exec_ldi_of_lt (imm : Byte) (h : r.toNat < 8) :
    exec (.ldi r imm) s = .next ((s.setReg ⟨r.toNat, h⟩ imm).advance 2) := checkReg_of_lt h

theorem exec_prn_of_lt (h : r.toNat < 8) :
    exec (.prn r) s = .next ((s.output (.print (s.reg ⟨r.toNat, h⟩))).advance 1) := checkReg_of_lt h

theorem exec_ldi_of_ge (imm : Byte) (h : 8 ≤ r.toNat) :
    exec (.ldi r imm) s = .next { s with run := .halted (.illegalRegister r) } := checkReg_of_ge_halts h

theorem exec_prn_of_ge (h : 8 ≤ r.toNat) :
    exec (.prn r) s = .next { s with run := .halted (.illegalRegister r) } := checkReg_of_ge_halts h

/-- Settles O4: the next state is a register write and an advance of two operand bytes, or the register fault. -/
theorem ldiLoadsTheImmediate : Obligations.LdiLoadsTheImmediate := by
  intro om r imm s
  refine ⟨rfl, rfl, fun hr => ⟨_, exec_ldi_of_lt imm hr, ?_⟩, exec_ldi_of_ge imm⟩
  have hload : (s.setReg ⟨r.toNat, hr⟩ imm).reg ⟨r.toNat, hr⟩ = imm := s.reg_setReg_same _ imm
  have hpc := (s.setReg ⟨r.toNat, hr⟩ imm).toNat_advance_pc 2
  exact ⟨hload, s.sameRegsBut_setReg _ imm, hpc, rfl, rfl, rfl, fun _ => rfl⟩

/-- Settles O5: the next state is the output of one event and an advance of one operand byte, or the register fault. -/
theorem prnOutputsTheRegister : Obligations.PrnOutputsTheRegister := by
  intro om r s
  refine ⟨rfl, rfl, fun hr => ⟨_, exec_prn_of_lt hr, ?_⟩, exec_prn_of_ge⟩
  have hpc := (s.output (.print (s.reg ⟨r.toNat, hr⟩))).toNat_advance_pc 1
  exact ⟨rfl, fun _ => rfl, hpc, rfl, rfl, fun _ => rfl⟩

end Sys2Proof.Machine
end

section
/-! PROOFS. The statements of 42_alu.md: ADD and MUL write the low byte of the sum and of the product (R112, R115), CMP
compares values (R121). -/

namespace Sys2Proof.Machine

variable {s : State} {op : AluOp} {n : Nat} {a b : Byte}

/-! ## The ALU instructions: one equation per outcome of the two register checks -/

/-- The first operand is checked first: if it names no register, the second is not looked at (R90). -/
theorem execAlu_of_ge_first (h : 8 ≤ a.toNat) :
    execAlu op n a b s = .next { s with run := .halted (.illegalRegister a) } := checkReg_of_ge_halts h

theorem execAlu_of_ge_second (ha : a.toNat < 8) (hb : 8 ≤ b.toNat) :
    execAlu op n a b s = .next { s with run := .halted (.illegalRegister b) } := by
  rw [execAlu, checkReg_of_lt ha, checkReg_of_ge_halts hb]

theorem exec_add_of_lt (ha : a.toNat < 8) (hb : b.toNat < 8) :
    exec (.add a b) s = .next ((s.setReg ⟨a.toNat, ha⟩
      (BitVec.ofNat 8 ((s.reg ⟨a.toNat, ha⟩).toNat + (s.reg ⟨b.toNat, hb⟩).toNat))).advance 2) := execAlu_of_lt ha hb

theorem exec_mul_of_lt (ha : a.toNat < 8) (hb : b.toNat < 8) :
    exec (.mul a b) s = .next ((s.setReg ⟨a.toNat, ha⟩
      (BitVec.ofNat 8 ((s.reg ⟨a.toNat, ha⟩).toNat * (s.reg ⟨b.toNat, hb⟩).toNat))).advance 2) := execAlu_of_lt ha hb

theorem exec_cmp_of_lt (ha : a.toNat < 8) (hb : b.toNat < 8) :
    exec (.cmp a b) s = .next
      ((s.setFlags (compareFlags (s.reg ⟨a.toNat, ha⟩) (s.reg ⟨b.toNat, hb⟩))).advance 2) := execAlu_of_lt ha hb

/-! ## What the write of a result leaves -/

/-- A register write of the low byte of `x` and an advance of two operand bytes: the register holds `x` mod 256, the pc
goes past three bytes, and all else is as before. -/
theorem State.setReg_ofNat_advance_frame (s : State) (i : RegIdx) (x : Nat) :
    (((s.setReg i (BitVec.ofNat 8 x)).advance 2).reg i).toNat = x % 256 ∧
    SameRegsBut [i] s ((s.setReg i (BitVec.ofNat 8 x)).advance 2) ∧
    ((s.setReg i (BitVec.ofNat 8 x)).advance 2).pc.toNat = (s.pc.toNat + 3) % 256 ∧
    ((s.setReg i (BitVec.ofNat 8 x)).advance 2).fl = s.fl ∧
    ((s.setReg i (BitVec.ofNat 8 x)).advance 2).run = s.run ∧
    ((s.setReg i (BitVec.ofNat 8 x)).advance 2).out = s.out ∧
    SameMem s ((s.setReg i (BitVec.ofNat 8 x)).advance 2) := by
  have hval : (((s.setReg i (BitVec.ofNat 8 x)).advance 2).reg i).toNat = x % 256 := by
    rw [reg_advance, reg_setReg_same, BitVec.toNat_ofNat]
  have hpc := (s.setReg i (BitVec.ofNat 8 x)).toNat_advance_pc 2
  exact ⟨hval, s.sameRegsBut_setReg i _, hpc, rfl, rfl, rfl, fun _ => rfl⟩

/-- Equal is the equality of the two values (R120). -/
theorem compareFlags_e_iff (va vb : Byte) : (compareFlags va vb).e = true ↔ va = vb :=
  decide_eq_true_iff.trans BitVec.toNat_inj

/-! ## The statements -/

/-- Settles O7: the next state is a register write of the sum's low byte and an advance, or the register fault of the
first illegal operand. -/
theorem addWritesTheSumModulo256 : Obligations.AddWritesTheSumModulo256 := by
  intro om a b s
  refine ⟨rfl, rfl, fun ha hb => ⟨_, exec_add_of_lt ha hb, ?_⟩, execAlu_of_ge_first, execAlu_of_ge_second⟩
  exact s.setReg_ofNat_advance_frame _ _

/-- Settles O8: as for ADD, with the product's low byte. -/
theorem mulWritesTheProductModulo256 : Obligations.MulWritesTheProductModulo256 := by
  intro om a b s
  refine ⟨rfl, rfl, fun ha hb => ⟨_, exec_mul_of_lt ha hb, ?_⟩, execAlu_of_ge_first, execAlu_of_ge_second⟩
  exact s.setReg_ofNat_advance_frame _ _

/-- Settles O10: FL after CMP is `compareFlags` of the two values, whatever it was before. -/
theorem cmpComparesValuesNotIndices : Obligations.CmpComparesValuesNotIndices := by
  intro a b c d ha hb hc hd s s' hac hbd
  refine ⟨_, _, exec_cmp_of_lt ha hb, exec_cmp_of_lt hc hd, ?_, ?_⟩
  · rw [State.advance_fl, State.advance_fl, State.setFlags_fl, State.setFlags_fl, hac, hbd]
  · rw [State.advance_fl, State.setFlags_fl]
    exact compareFlags_e_iff _ _

end Sys2Proof.Machine
end

section
/-! PROOFS. The statements of 44_control.md: RET pops the pc (R146), JMP is always taken (R148), JEQ and JNE are taken by
Equal and otherwise advance (R150, R153). -/

namespace Sys2Proof.Machine

variable {s : State} {r : Byte}

/-! ## The control transfers: one equation per outcome of the register check -/

theorem exec_ret (s : State) : exec .ret s = .next ((s.setSp (s.sp + 1)).setPc (s.memRead s.sp)) := rfl

theorem exec_jmp_of_lt (h : r.toNat < 8) : exec (.jmp r) s = .next (s.setPc (s.reg ⟨r.toNat, h⟩)) := checkReg_of_lt h

theorem exec_jeq_of_lt (h : r.toNat < 8) :
    exec (.jeq r) s = .next (s.jumpIf s.fl.e (s.reg ⟨r.toNat, h⟩) 1) := checkReg_of_lt h

theorem exec_jne_of_lt (h : r.toNat < 8) :
    exec (.jne r) s = .next (s.jumpIf (!s.fl.e) (s.reg ⟨r.toNat, h⟩) 1) := checkReg_of_lt h

theorem exec_jmp_of_ge (h : 8 ≤ r.toNat) :
    exec (.jmp r) s = .next { s with run := .halted (.illegalRegister r) } := checkReg_of_ge_halts h

theorem exec_jeq_of_ge (h : 8 ≤ r.toNat) :
    exec (.jeq r) s = .next { s with run := .halted (.illegalRegister r) } := checkReg_of_ge_halts h

theorem exec_jne_of_ge (h : 8 ≤ r.toNat) :
    exec (.jne r) s = .next { s with run := .halted (.illegalRegister r) } := checkReg_of_ge_halts h

/-! ## What a pop and a jump leave -/

theorem State.sameRegsBut_setSp (s : State) (v : Byte) : SameRegsBut [spIdx] s (s.setSp v) :=
  s.sameRegsBut_setReg spIdx v

/-- The pc of a jump on a condition: the target if taken, past the opcode and the operand bytes if not (R93). -/
theorem State.jumpIf_pc (s : State) (taken : Bool) (target : Byte) (n : Nat) :
    (taken = true → (s.jumpIf taken target n).pc = target) ∧
    (taken = false → (s.jumpIf taken target n).pc.toNat = (s.pc.toNat + (n + 1)) % 256) := by
  cases taken with
  | true => exact ⟨fun _ => rfl, nofun⟩
  | false => exact ⟨nofun, fun _ => s.toNat_advance_pc n⟩

/-- A jump on a condition, taken or not, writes the pc alone. -/
theorem State.jumpIf_frame (s : State) (taken : Bool) (target : Byte) (n : Nat) :
    SameRegs s (s.jumpIf taken target n) ∧ (s.jumpIf taken target n).fl = s.fl ∧
    (s.jumpIf taken target n).run = s.run ∧ (s.jumpIf taken target n).out = s.out ∧
    SameMem s (s.jumpIf taken target n) := by
  cases taken with
  | true => exact ⟨s.reg_setPc target, rfl, rfl, rfl, s.memRead_setPc target⟩
  | false => exact ⟨s.reg_advance n, rfl, rfl, rfl, s.memRead_advance n⟩

/-! ## The statements -/

/-- Settles O20: the next state is a write of SP and a write of the pc. -/
theorem retPopsThePc : Obligations.RetPopsThePc := by
  intro om s
  refine ⟨rfl, rfl, _, exec_ret s, rfl, ?_⟩
  have hsp : (s.setSp (s.sp + 1)).sp.toNat = (s.sp.toNat + 1) % 256 := by
    rw [State.sp_setSp, BitVec.toNat_add]
    rfl
  exact ⟨hsp, s.sameRegsBut_setSp (s.sp + 1), rfl, rfl, rfl, s.memRead_setSp (s.sp + 1)⟩

/-- Settles O22: the next state is a write of the pc, or the register fault. -/
theorem jmpJumpsToTheRegister : Obligations.JmpJumpsToTheRegister := by
  intro om r s
  refine ⟨rfl, rfl, fun hr => ⟨_, exec_jmp_of_lt hr, rfl, ?_⟩, exec_jmp_of_ge⟩
  exact ⟨s.reg_setPc _, rfl, rfl, rfl, s.memRead_setPc _⟩

/-- Settles O23: the next state is a jump on Equal, or the register fault. -/
theorem jeqJumpsIfEqual : Obligations.JeqJumpsIfEqual := by
  intro om r s
  refine ⟨rfl, rfl, fun hr => ⟨_, exec_jeq_of_lt hr, ?_⟩, exec_jeq_of_ge⟩
  obtain ⟨htaken, hnot⟩ := s.jumpIf_pc s.fl.e (s.reg ⟨r.toNat, hr⟩) 1
  exact ⟨htaken, hnot, s.jumpIf_frame _ _ 1⟩

/-- Settles O24: the next state is a jump on the negation of Equal, or the register fault. -/
theorem jneJumpsIfNotEqual : Obligations.JneJumpsIfNotEqual := by
  intro om r s
  refine ⟨rfl, rfl, fun hr => ⟨_, exec_jne_of_lt hr, ?_⟩, exec_jne_of_ge⟩
  obtain ⟨htaken, hnot⟩ := s.jumpIf_pc (!s.fl.e) (s.reg ⟨r.toNat, hr⟩) 1
  exact ⟨fun he => htaken (congrArg not he), fun he => hnot (congrArg not he), s.jumpIf_frame _ _ 1⟩

end Sys2Proof.Machine
end

section
/-! PROOFS. The statement of 60_exceptions.md: an unknown opcode is reported and halts (R161). -/

namespace Sys2Proof.Machine

variable {om : OpcodeMap} {s : State}

/-- The other two cases of a tick cannot be: the core runs, and no mnemonic has the fetched opcode (R161). -/
theorem stepWith_of_unknownOpcode (hrun : s.run = .running) (hop : ∀ m, om m ≠ s.memRead s.pc) :
    stepWith om s = .next (s.takeFault (.unknownOpcode (s.memRead s.pc))) := by
  rcases stepWith_cases om s with ⟨r, hhalted, -⟩ | ⟨-, -, hstep⟩ | ⟨-, m, hm, -⟩
  · exact nomatch hrun.symm.trans hhalted
  · exact hstep
  · exact absurd hm (hop m)

theorem defaultOpcodeMap_ne_zero (m : Mnemonic) : defaultOpcodeMap m ≠ 0x00 := by cases m <;> decide

theorem defaultOpcodeMap_ne_ones (m : Mnemonic) : defaultOpcodeMap m ≠ 0xFF := by cases m <;> decide

/-- Settles O28: the next state takes the unknown-opcode fault, whose report and halt reason are the byte's. -/
theorem unknownOpcodeIsReportedAndHalts : Obligations.UnknownOpcodeIsReportedAndHalts := by
  refine ⟨fun om s hrun hop => ⟨_, stepWith_of_unknownOpcode hrun hop, ?_, ?_⟩,
    defaultOpcodeMap_ne_zero, defaultOpcodeMap_ne_ones⟩
  · exact s.takeFault_out _
  · exact s.takeFault_run _

end Sys2Proof.Machine
end

section
/-! PROOFS. The statements of 30_encoding.md, sections 1 to 3: decode and encode agree under every legal opcode map, and
which bytes are no opcode (R70 to R79). -/

namespace Sys2Proof

variable {om : OpcodeMap} {op a b : Byte} {i : Instr}

/-! ## The decoder, inverted -/

theorem decode_opcode (hom : LegalMap om) (m : Mnemonic) (a b : Byte) :
    decode om (om m) a b = .ok (m.withOperands a b) := by
  rw [decode, mnemonicOf?_complete hom]

theorem decode_eq_ok (h : decode om op a b = .ok i) : ∃ m, om m = op ∧ m.withOperands a b = i := by
  rcases decode_cases om op a b with ⟨m, hm, hd⟩ | ⟨-, hd⟩
  · exact ⟨m, hm, Except.ok.inj (hd.symm.trans h)⟩
  · exact nomatch hd.symm.trans h

theorem decode_eq_ok_mnemonic (h : decode om op a b = .ok i) : om i.mnemonic = op := by
  obtain ⟨m, hm, rfl⟩ := decode_eq_ok h
  rw [Mnemonic.mnemonic_withOperands, hm]

/-- The decoder rejects a byte only by its name, and only if it is the opcode of no mnemonic. -/
theorem decode_eq_error {e : Byte} (h : decode om op a b = .error (.unknownOpcode e)) : (∀ m, om m ≠ op) ∧ e = op := by
  rcases decode_cases om op a b with ⟨m, -, hd⟩ | ⟨hm, hd⟩
  · exact nomatch hd.symm.trans h
  · rw [hd] at h
    injection h with h
    injection h with h
    exact ⟨hm, h.symm⟩

/-! ## Lengths -/

/-- The encoding of a mnemonic with two latched operand bytes is as much of the three bytes as the mnemonic takes. -/
theorem encode_withOperands (om : OpcodeMap) (m : Mnemonic) (a b : Byte) :
    encode om (m.withOperands a b) = [om m, a, b].take (1 + m.operandCount) := by
  cases m <;> rfl

theorem length_encode (om : OpcodeMap) (i : Instr) : (encode om i).length = 1 + i.mnemonic.operandCount := by
  cases i <;> rfl

theorem Mnemonic.operandCount_le_two (m : Mnemonic) : m.operandCount ≤ 2 := by cases m <;> decide

theorem operandCountOf_eq_div (op : Byte) : operandCountOf op = op.toNat / 64 := by
  rw [operandCountOf, BitVec.toNat_ushiftRight, Nat.shiftRight_eq_div_pow]

theorem decode_eq_ok_operandCount (hom : LegalMap om) (h : decode om op a b = .ok i) :
    i.mnemonic.operandCount = operandCountOf op := by
  rw [← decode_eq_ok_mnemonic h, hom.2]

/-! ## Legal maps -/

/-- A map is legal if the search finds the mnemonic of each of its opcodes and bits 7:6 are right. -/
theorem legalMap_of_search (hsearch : ∀ m, mnemonicOf? om (om m) = some m)
    (hbits : ∀ m, operandCountOf (om m) = m.operandCount) : LegalMap om :=
  ⟨fun m m' e => Option.some.inj (by rw [← hsearch m, ← hsearch m', e]), hbits⟩

theorem defaultOpcodeMap_legal : LegalMap defaultOpcodeMap :=
  legalMap_of_search (fun m => by cases m <;> rfl) fun m => by cases m <;> rfl

theorem secondOpcodeMap_legal : LegalMap secondOpcodeMap :=
  legalMap_of_search (fun m => by cases m <;> rfl) fun m => by cases m <;> rfl

/-! ## Counting the opcodes -/

theorem isSome_mnemonicOf? : (mnemonicOf? om op).isSome = true ↔ ∃ m, om m = op := by
  rw [Option.isSome_iff_ne_none, ne_eq, mnemonicOf?_eq_none]
  simp only [ne_eq, not_forall, not_not]

/-- The recognised byte values are the opcodes of the mnemonics, each once. -/
theorem recognised_perm_opcodes (hom : LegalMap om) :
    ((List.range 256).filter fun n => (mnemonicOf? om (BitVec.ofNat 8 n)).isSome).Perm
      (allMnemonics.map fun m => (om m).toNat) := by
  have hinj : Function.Injective fun m => (om m).toNat := fun m m' e => hom.1 m m' (BitVec.eq_of_toNat_eq e)
  have hnodup : (allMnemonics.map fun m => (om m).toNat).Nodup := List.Nodup.map hinj (by decide)
  refine (List.perm_ext_iff_of_nodup (List.nodup_range.filter _) hnodup).mpr fun n => ?_
  rw [List.mem_filter, isSome_mnemonicOf?, List.mem_range, List.mem_map]
  constructor
  · rintro ⟨hn, m, hm⟩
    exact ⟨m, mem_allMnemonics m, by rw [hm, BitVec.toNat_ofNat, Nat.mod_eq_of_lt hn]⟩
  · rintro ⟨m, -, rfl⟩
    exact ⟨(om m).isLt, m, by rw [BitVec.ofNat_toNat, BitVec.setWidth_eq]⟩

/-- Under every legal map the 13 opcodes leave 243 of the 256 byte values (R79). -/
theorem length_unknown (hom : LegalMap om) :
    ((List.range 256).filter fun n => (mnemonicOf? om (BitVec.ofNat 8 n)).isNone).length = 243 := by
  have hknown : ((List.range 256).filter fun n => (mnemonicOf? om (BitVec.ofNat 8 n)).isSome).length = 13 := by
    rw [(recognised_perm_opcodes hom).length_eq, List.length_map]
    rfl
  have hsplit := List.length_eq_length_filter_add (l := List.range 256)
    fun n => (mnemonicOf? om (BitVec.ofNat 8 n)).isSome
  simp only [List.length_range, hknown, Option.not_isSome] at hsplit
  omega

/-! ## The statements -/

/-- Settles O33: the first byte is the opcode, whose mnemonic the search finds, and the instruction is rebuilt from it
and the two bytes that follow. -/
theorem decodeOfEncodeUnderEveryLegalMap : Obligations.DecodeOfEncodeUnderEveryLegalMap := by
  intro om hom i x y op a b rest h
  obtain ⟨hop, hbytes⟩ : om i.mnemonic = op ∧ i.operandBytes ++ [x, y] = a :: b :: rest := List.cons.inj h
  have hrebuilt := i.withOperands_operandBytes x y
  rw [hbytes] at hrebuilt
  calc decode om op a b = .ok (i.mnemonic.withOperands a b) := by rw [← hop, decode_opcode hom]
    _ = .ok i := congrArg _ hrebuilt

/-- Settles O34: what is decoded is the opcode's mnemonic with the two bytes that follow, and that is encoded there. -/
theorem decodedBytesAreTheEncoding : Obligations.DecodedBytesAreTheEncoding := by
  intro om op a b i h
  obtain ⟨m, rfl, rfl⟩ := decode_eq_ok h
  rw [Mnemonic.mnemonic_withOperands, encode_withOperands]

/-- Settles O36: the mnemonic of such an opcode would have three operands. -/
theorem topBitsElevenAreUnknown : Obligations.TopBitsElevenAreUnknown := by
  intro om hom op a b h
  rcases decode_cases om op a b with ⟨m, hm, -⟩ | ⟨-, hd⟩
  · have hthree : m.operandCount = 3 := by rw [← hom.2 m, hm, operandCountOf_eq_div, h]
    exact absurd m.operandCount_le_two (by omega)
  · exact hd

/-- Settles O37. -/
theorem listedOpcodeMapsAreLegal : Obligations.ListedOpcodeMapsAreLegal :=
  ⟨defaultOpcodeMap_legal, secondOpcodeMap_legal⟩

/-- Settles O38: the default map is a legal one. -/
theorem unknownOpcodesAre243 : Obligations.UnknownOpcodesAre243 := length_unknown defaultOpcodeMap_legal

/-- Settles O39: each word is decoded by computation. -/
theorem tableWordsDecode : Obligations.TableWordsDecode :=
  ⟨rfl, rfl, rfl, rfl, rfl, rfl, rfl, rfl⟩

end Sys2Proof
end

section
/-! PROOFS. All an instruction can do: it always answers a next state, the effects are exactly its next states, and what
an effect leaves of each field. With it the statements of 60_exceptions.md on the register fault (R90, R163), and of
10_state.md and 30_encoding.md on what an instruction writes (R22, R28, R93). -/

namespace Sys2Proof.Machine

variable {s t : State} {i : Instr} {r a b f : Byte}

/-! ## The stack instructions: one equation per outcome of the register check -/

theorem exec_push_of_lt (h : r.toNat < 8) :
    exec (.push r) s = .next ((s.stackPush (s.reg ⟨r.toNat, h⟩)).advance 1) := checkReg_of_lt h

theorem exec_pop_of_lt (h : r.toNat < 8) :
    exec (.pop r) s = .next (((s.setSp (s.sp + 1)).setReg ⟨r.toNat, h⟩ (s.memRead s.sp)).advance 1) := checkReg_of_lt h

theorem exec_call_of_lt (h : r.toNat < 8) :
    exec (.call r) s = .next ((s.stackPush (s.pc + 2)).setPc (s.reg ⟨r.toNat, h⟩)) := checkReg_of_lt h

/-! ## Which instructions take the register fault -/

theorem firstIllegal?_eq_none_iff : i.firstIllegal? = none ↔ i.wellFormed = true := by
  simp [Instr.firstIllegal?, Instr.wellFormed]

theorem wellFormed_of_firstIllegal? (h : i.firstIllegal? = some f) : i.wellFormed = false := by
  rw [← Bool.not_eq_true, ← firstIllegal?_eq_none_iff, h]
  exact nofun

theorem firstIllegal?_eq_none_one (hi : i.regOperands = [r]) (h : r.toNat < 8) : i.firstIllegal? = none := by
  rw [Instr.firstIllegal?, hi, firstIllegal?_skip h]
  rfl

theorem firstIllegal?_eq_none_two (hi : i.regOperands = [a, b]) (ha : a.toNat < 8) (hb : b.toNat < 8) :
    i.firstIllegal? = none := by
  rw [Instr.firstIllegal?, hi, firstIllegal?_skip ha, firstIllegal?_skip hb]
  rfl

/-- An effect is the register fault of the first illegal operand, or no operand is illegal. -/
theorem Effect.fault_or_legal (h : Effect s i t) :
    (∃ f, i.firstIllegal? = some f ∧ t = s.takeFault (.illegalRegister f)) ∨ i.firstIllegal? = none := by
  cases h with
  | fault i b hi => exact .inl ⟨b, hi, rfl⟩
  | hlt | ret => exact .inr rfl
  | ldi _ _ h | prn _ h | push _ h | pop _ h | call _ h | jmp _ h | jeqTaken _ h | jeqNot _ h | jneTaken _ h
  | jneNot _ h => exact .inr (firstIllegal?_eq_none_one rfl h)
  | mul _ _ ha hb | add _ _ ha hb | cmp _ _ ha hb => exact .inr (firstIllegal?_eq_none_two rfl ha hb)

/-! ## Every instruction answers a next state -/

theorem checkReg_total {go : RegIdx → Host.Outcome State Fault Refusal} (hgo : ∀ j, ∃ t, go j = .next t) :
    ∃ t, checkReg r s go = .next t := by
  rcases checkReg_cases r s go with ⟨h, e⟩ | ⟨-, e⟩
  · obtain ⟨t, ht⟩ := hgo ⟨r.toNat, h⟩
    exact ⟨t, e.trans ht⟩
  · exact ⟨_, e⟩

theorem execAlu_total {op : AluOp} {n : Nat} : ∃ t, execAlu op n a b s = .next t :=
  checkReg_total fun _ => checkReg_total fun _ => ⟨_, rfl⟩

theorem exec_total (i : Instr) (s : State) : ∃ t, exec i s = .next t := by
  cases i with
  | hlt | ret => exact ⟨_, rfl⟩
  | ldi | prn | push | pop | call | jmp | jeq | jne => exact checkReg_total fun _ => ⟨_, rfl⟩
  | mul | add | cmp => exact execAlu_total

/-- The first illegal operand is the outcome of every instruction that has one. -/
theorem exec_of_firstIllegal? (h : i.firstIllegal? = some f) :
    exec i s = .next (s.takeFault (.illegalRegister f)) := by
  obtain ⟨t, ht⟩ := exec_total i s
  rcases (effect_of_exec ht).fault_or_legal with ⟨f', hf', rfl⟩ | hnone
  · rw [ht, Option.some.inj (h.symm.trans hf')]
  · exact nomatch h.symm.trans hnone

/-- Every effect of an instruction is its next state: the converse of `effect_of_exec`. -/
theorem exec_of_effect (h : Effect s i t) : exec i s = .next t := by
  cases h with
  | fault i b hi => exact exec_of_firstIllegal? hi
  | hlt | ret => rfl
  | ldi _ imm h => exact exec_ldi_of_lt imm h
  | prn _ h => exact exec_prn_of_lt h
  | mul _ _ ha hb => exact exec_mul_of_lt ha hb
  | add _ _ ha hb => exact exec_add_of_lt ha hb
  | push _ h => exact exec_push_of_lt h
  | pop _ h => exact exec_pop_of_lt h
  | call _ h => exact exec_call_of_lt h
  | cmp _ _ ha hb => exact exec_cmp_of_lt ha hb
  | jmp _ h => exact exec_jmp_of_lt h
  | jeqTaken _ h hf | jeqNot _ h hf => rw [exec_jeq_of_lt h, hf]; rfl
  | jneTaken _ h hf | jneNot _ h hf => rw [exec_jne_of_lt h, hf]; rfl

/-! ## What an effect leaves of each field -/

/-- FL is as before, or what the comparison of two bytes gives (R28). -/
theorem Effect.fl_cases (h : Effect s i t) :
    t.fl = s.fl ∨ ∃ a b va vb, i = .cmp a b ∧ t.fl = compareFlags va vb := by
  cases h with
  | cmp a b => exact .inr ⟨a, b, _, _, rfl, rfl⟩
  | _ => exact .inl rfl

/-- The run state is as before, or HLT or the register fault halted the core (R29). -/
theorem Effect.run_cases (h : Effect s i t) :
    t.run = s.run ∨ (i = .hlt ∧ t.run = .halted .hlt) ∨
    ∃ f, i.firstIllegal? = some f ∧ t = s.takeFault (.illegalRegister f) := by
  cases h with
  | fault i b hi => exact .inr (.inr ⟨b, hi, rfl⟩)
  | hlt => exact .inr (.inl ⟨rfl, rfl⟩)
  | _ => exact .inl rfl

/-- The output is as before, or PRN appended the value of its register (R33). -/
theorem Effect.out_cases (h : Effect s i t) :
    t.out = s.out ∨ ∃ (r : Byte) (hr : r.toNat < 8), i = .prn r ∧ t.out = s.out ++ [.print (s.reg ⟨r.toNat, hr⟩)] := by
  cases h with
  | fault => exact .inl (List.append_nil _)
  | prn r hr => exact .inr ⟨r, hr, rfl, rfl⟩
  | _ => exact .inl rfl

/-- An untaken instruction without a fault makes the automatic advance (R93). -/
theorem Effect.pc_of_not_takes (h : Effect s i t) (hi : i.wellFormed = true) (htake : instrTakes i s = false) :
    t.pc = (s.advance i.mnemonic.operandCount).pc := by
  cases h with
  | fault i b hf => exact nomatch hi.symm.trans (wellFormed_of_firstIllegal? hf)
  | call | ret | jmp => exact nomatch htake
  | jeqTaken _ _ he => exact nomatch he.symm.trans htake
  | jneTaken _ _ he => exact nomatch (congrArg not he).symm.trans htake
  | _ => rfl

/-- A taken one goes to the value of its register, or to the byte RET pops (R93). -/
theorem Effect.pc_of_takes (h : Effect s i t) (hi : i.wellFormed = true) (htake : instrTakes i s = true) :
    (i = .ret ∧ t.pc = s.memRead s.sp) ∨
    ∃ (r : Byte) (hr : r.toNat < 8), i.operandBytes = [r] ∧ t.pc = s.reg ⟨r.toNat, hr⟩ := by
  cases h with
  | fault i b hf => exact nomatch hi.symm.trans (wellFormed_of_firstIllegal? hf)
  | ret => exact .inl ⟨rfl, rfl⟩
  | call r hr | jmp r hr | jeqTaken r hr | jneTaken r hr => exact .inr ⟨r, hr, rfl, rfl⟩
  | jeqNot _ _ he => exact nomatch he.symm.trans htake
  | jneNot _ _ he => exact nomatch (congrArg not he).symm.trans htake
  | _ => exact nomatch htake

/-- An instruction with an illegal operand has no effect but the fault. -/
theorem Effect.eq_takeFault (h : Effect s i t) (hi : i.wellFormed = false) :
    ∃ f, t = s.takeFault (.illegalRegister f) := by
  rcases h.fault_or_legal with ⟨f, -, ht⟩ | hnone
  · exact ⟨f, ht⟩
  · exact nomatch hi.symm.trans (firstIllegal?_eq_none_iff.mp hnone)

theorem State.sameRegsBut_stackPush (s : State) (v : Byte) : SameRegsBut [spIdx] s (s.stackPush v) :=
  s.sameRegsBut_setSp s.pushAddr

/-- POP writes SP and then its destination. -/
theorem State.sameRegsBut_setSp_setReg (s : State) (j : RegIdx) (v w : Byte) :
    SameRegsBut [spIdx, j] s ((s.setSp v).setReg j w) := by
  intro k hk
  obtain ⟨hsp, hj⟩ := not_or.mp (mt List.mem_cons.mpr hk)
  rw [(s.setSp v).sameRegsBut_setReg j w k hj, s.reg_setSp, if_neg hsp]

/-- Only the registers of the access table are written (R22). -/
theorem Effect.sameRegsBut (h : Effect s i t) : SameRegsBut (instrWrites i) s t := by
  cases h with
  | ldi r _ h | mul r _ h | add r _ h =>
    simp only [instrWrites, regIndex?_of_lt h]
    exact s.sameRegsBut_setReg _ _
  | push r h => exact s.sameRegsBut_stackPush (s.reg ⟨r.toNat, h⟩)
  | call => exact s.sameRegsBut_stackPush (s.pc + 2)
  | ret => exact s.sameRegsBut_setSp (s.sp + 1)
  | pop r h =>
    simp only [instrWrites, regIndex?_of_lt h]
    exact s.sameRegsBut_setSp_setReg _ _ _
  | _ => exact fun _ _ => rfl

/-! ## The statements -/

/-- Settles O27: the fault of that operand is the instruction's only outcome. -/
theorem firstIllegalRegisterHaltsBeforeAnyEffect : Obligations.FirstIllegalRegisterHaltsBeforeAnyEffect := by
  intro i s f h
  rw [exec_of_firstIllegal? h, State.takeFault_illegalRegister]

/-- Settles O13, from the two things an effect can leave in FL. -/
theorem onlyCmpWritesFlags : Obligations.OnlyCmpWritesFlags := by
  intro i s t h hcmp
  rcases (effect_of_exec h).fl_cases with hfl | ⟨a, b, -, -, hi, -⟩
  · exact hfl
  · exact absurd hi (hcmp a b)

/-- Settles O45, effect by effect. -/
theorem instructionsWriteOnlyTheirRegisters : Obligations.InstructionsWriteOnlyTheirRegisters :=
  fun _ _ _ h => (effect_of_exec h).sameRegsBut

/-- Settles O44: one lemma per clause. -/
theorem pcAdvancesUnlessTheHandlerWritesIt : Obligations.PcAdvancesUnlessTheHandlerWritesIt := by
  intro i s t h
  have heff := effect_of_exec h
  refine ⟨fun hi htake => ?_, heff.pc_of_takes, fun hi => ?_⟩
  · rw [heff.pc_of_not_takes hi htake, s.toNat_advance_pc, Nat.add_assoc, Nat.add_comm 1]
  · obtain ⟨f, rfl⟩ := heff.eq_takeFault hi
    rfl

/-- Settles O35: the decoded mnemonic's operand count is that of the opcode byte, by the legality of the map. -/
theorem opcodeTopBitsGiveLengthAndAdvance : Obligations.OpcodeTopBitsGiveLengthAndAdvance := by
  intro om hom op a b i h
  have hcount := decode_eq_ok_operandCount hom h
  refine ⟨?_, operandCountOf_eq_div op, fun a' b' i' h' => ?_, fun s t hi htake ht => ?_⟩
  · rw [length_encode, hcount]
  · rw [length_encode, length_encode, hcount, decode_eq_ok_operandCount hom h']
  · obtain ⟨hadvance, -, -⟩ := pcAdvancesUnlessTheHandlerWritesIt i s t ht
    rw [← hcount, ← Nat.add_assoc, hadvance hi htake]

end Sys2Proof.Machine
end

section
/-! PROOFS. The statements of 30_encoding.md, section 5, and 60_exceptions.md: what a tick does (R88 to R95), its faults
(R160 to R166), and why a core halts (R29). -/

namespace Sys2Proof.Machine

variable {om : OpcodeMap} {s t : State} {i : Instr} {x : HostInput}

/-! ## The tick, forwards -/

/-- The tick's three bytes at pc decode to an instruction. -/
theorem stepWith_of_decode (hrun : s.run = .running)
    (hd : decode om (s.memRead s.pc) (s.memRead (s.pc + 1)) (s.memRead (s.pc + 2)) = .ok i) :
    stepWith om s = exec i s := by
  have hfetch : decode om s.fetch.opcode s.fetch.operandA s.fetch.operandB = .ok i := hd
  simp only [stepWith, hrun, hfetch]

/-- Every tick answers a next state (R95). -/
theorem stepWith_total (om : OpcodeMap) (s : State) : ∃ t, stepWith om s = .next t := by
  rcases stepWith_cases om s with ⟨-, -, hstep⟩ | ⟨-, -, hstep⟩ | ⟨-, m, -, hstep⟩
  · exact ⟨_, hstep⟩
  · exact ⟨_, hstep⟩
  · rw [hstep]
    exact exec_total _ s

/-! ## The tick, inverted -/

/-- All a tick can have done: nothing, the unknown-opcode fault, or an effect of the decoded instruction. -/
theorem stepWith_next (h : stepWith om s = .next t) :
    (∃ r, s.run = .halted r ∧ t = s) ∨
    (s.run = .running ∧ (∀ m, om m ≠ s.memRead s.pc) ∧ t = s.takeFault (.unknownOpcode (s.memRead s.pc))) ∨
    (s.run = .running ∧ ∃ i,
      decode om (s.memRead s.pc) (s.memRead (s.pc + 1)) (s.memRead (s.pc + 2)) = .ok i ∧ Effect s i t) := by
  rcases hrun : s.run with _ | r
  · rcases decode_cases om (s.memRead s.pc) (s.memRead (s.pc + 1)) (s.memRead (s.pc + 2)) with ⟨m, -, hd⟩ | ⟨hm, -⟩
    · exact .inr (.inr ⟨rfl, _, hd, effect_of_exec ((stepWith_of_decode hrun hd).symm.trans h)⟩)
    · rw [stepWith_of_unknownOpcode hrun hm] at h
      injection h with h
      exact .inr (.inl ⟨rfl, hm, h.symm⟩)
  · rw [stepWith_of_halted hrun] at h
    injection h with h
    exact .inl ⟨r, rfl, h.symm⟩

/-- A tick of a running core leaves it running, takes one of the two faults, or executes HLT. -/
theorem stepWith_running_cases (hrun : s.run = .running) (h : stepWith om s = .next t) :
    t.run = .running ∨
    ((∀ m, om m ≠ s.memRead s.pc) ∧ t = s.takeFault (.unknownOpcode (s.memRead s.pc))) ∨
    ∃ i, decode om (s.memRead s.pc) (s.memRead (s.pc + 1)) (s.memRead (s.pc + 2)) = .ok i ∧
      ((i = .hlt ∧ t.run = .halted .hlt) ∨
        ∃ f, i.firstIllegal? = some f ∧ t = s.takeFault (.illegalRegister f)) := by
  rcases stepWith_next h with ⟨r, hr, -⟩ | ⟨-, hop, ht⟩ | ⟨-, i, hd, heff⟩
  · exact nomatch hrun.symm.trans hr
  · exact .inr (.inl ⟨hop, ht⟩)
  · rcases heff.run_cases with hsame | hhalt
    · exact .inl (hsame.trans hrun)
    · exact .inr (.inr ⟨i, hd, hhalt⟩)

theorem SyncFault.reason_injective {f g : SyncFault} (h : f.reason = g.reason) : f = g :=
  match f, g, h with
  | .unknownOpcode _, .unknownOpcode _, rfl => rfl
  | .illegalRegister _, .illegalRegister _, rfl => rfl

theorem SyncFault.reason_ne_hlt (f : SyncFault) : f.reason ≠ .hlt := by cases f <;> exact nofun

theorem State.stopInput_of_running (h : s.run = .running) : s.stopInput = s.halt .stopped := by
  simp only [State.stopInput, h]

/-! ## An encoding in memory -/

/-- An instruction is rebuilt from its mnemonic and two bytes that agree with its operand bytes. -/
theorem withOperands_of_getElem? {a b : Byte} (ha : ∀ v, i.operandBytes[0]? = some v → a = v)
    (hb : ∀ v, i.operandBytes[1]? = some v → b = v) : i.mnemonic.withOperands a b = i := by
  cases i with
  | hlt | ret => rfl
  | prn | push | pop | call | jmp | jeq | jne => rw [ha _ rfl]; rfl
  | ldi | mul | add | cmp => rw [ha _ rfl, hb _ rfl]; rfl

/-! ## The statements -/

/-- Settles O43. -/
theorem everyTickAnswersNext : Obligations.EveryTickAnswersNext := stepWith_total

/-- Settles O41: one lemma per case of the tick. -/
theorem tickRunsTheDecodedInstruction : Obligations.TickRunsTheDecodedInstruction := by
  intro om s
  refine ⟨fun hrun i hd => stepWith_of_decode hrun hd, fun hrun op hd => ?_, fun r hr => stepWith_of_halted hr, rfl⟩
  obtain ⟨hop, rfl⟩ := decode_eq_error hd
  exact stepWith_of_unknownOpcode hrun hop

/-- Settles O42: the byte at pc is the opcode, and the two bytes behind it give the operands back. -/
theorem tickRunsTheEncodedInstruction : Obligations.TickRunsTheEncodedInstruction := by
  intro om hom i s hrun hmem
  have hop : s.memRead s.pc = om i.mnemonic := by simpa using hmem 0 _ rfl
  have hoperands : i.mnemonic.withOperands (s.memRead (s.pc + 1)) (s.memRead (s.pc + 2)) = i :=
    withOperands_of_getElem? (hmem 1) (hmem 2)
  refine stepWith_of_decode hrun ?_
  rw [hop, decode_opcode hom, hoperands]

/-- Settles O40: the fetch reads come first in both cases of a running core. -/
theorem fetchAlwaysReadsThreeBytes : Obligations.FetchAlwaysReadsThreeBytes := by
  intro om s
  have hwrap (k : Nat) : s.pc + BitVec.ofNat 8 k = BitVec.ofNat 8 ((s.pc.toNat + k) % 256) := by bv_omega
  rw [← hwrap 1, ← hwrap 2]
  refine ⟨rfl, rfl, rfl, fun hrun => ?_⟩
  rcases stepAccesses_cases om s with ⟨r, hr, -⟩ | ⟨-, -, hacc⟩ | ⟨-, m, -, hacc⟩
  · exact nomatch hrun.symm.trans hr
  · exact ⟨[], hacc⟩
  · exact ⟨_, hacc⟩

/-- Settles O29: the fault writes run and out alone. -/
theorem unknownOpcodeChangesOnlyRunAndOut : Obligations.UnknownOpcodeChangesOnlyRunAndOut :=
  fun _ _ hrun hop => ⟨_, stepWith_of_unknownOpcode hrun hop, fun _ => rfl, rfl, rfl, rfl, rfl⟩

/-- Settles O30: of the ends of a running core's tick, only the two faults have a fault's reason. -/
theorem faultsArePrecise : Obligations.FaultsArePrecise := by
  intro om s t f hrun h hhalt
  have hfault {g : SyncFault} (ht : t = s.takeFault g) : t = s.takeFault f := by
    subst ht
    rw [State.takeFault_run, RunState.halted.injEq] at hhalt
    rw [SyncFault.reason_injective hhalt]
  rcases stepWith_running_cases hrun h with hr | ⟨-, ht⟩ | ⟨i, -, ⟨-, hr⟩ | ⟨g, -, ht⟩⟩
  · exact nomatch hr.symm.trans hhalt
  · exact hfault ht
  · rw [hr, RunState.halted.injEq] at hhalt
    exact absurd hhalt.symm f.reason_ne_hlt
  · exact hfault ht

/-- Settles O31: neither fault can be the end of the tick. -/
theorem wellFormedInstructionDoesNotFault : Obligations.WellFormedInstructionDoesNotFault := by
  intro om s i hrun hd hi
  obtain ⟨t, ht⟩ := exec_total i s
  refine ⟨t, (stepWith_of_decode hrun hd).trans ht, fun f hhalt => ?_⟩
  rcases (effect_of_exec ht).run_cases with hr | ⟨-, hr⟩ | ⟨g, hg, -⟩
  · exact nomatch hrun.symm.trans (hr.symm.trans hhalt)
  · rw [hr, RunState.halted.injEq] at hhalt
    exact absurd hhalt.symm f.reason_ne_hlt
  · exact nomatch hi.symm.trans (wellFormed_of_firstIllegal? hg)

/-- Settles O32: the tick's three halts, the stop input's, and no other input halts a running core. -/
theorem haltHasOneOfFourCauses : Obligations.HaltHasOneOfFourCauses := by
  intro om s t x r hrun h hr
  cases x with
  | tick =>
    rcases stepWith_running_cases hrun h with hrun' | ⟨hop, rfl⟩ | ⟨i, hd, ⟨rfl, hhlt⟩ | ⟨f, hf, rfl⟩⟩
    · exact nomatch hrun'.symm.trans hr
    · exact .inr (.inl ⟨rfl, (RunState.halted.inj hr).symm, hop⟩)
    · exact .inl ⟨rfl, RunState.halted.inj (hr.symm.trans hhlt), hd⟩
    · exact .inr (.inr (.inl ⟨rfl, i, f, hd, hf, (RunState.halted.inj hr).symm⟩))
  | stop =>
    injection h with h
    subst h
    rw [State.stopInput_of_running hrun] at hr
    exact .inr (.inr (.inr ⟨rfl, (RunState.halted.inj hr).symm⟩))
  | reset => injection h with h; subst h; exact nomatch hr
  | poke => injection h with h; subst h; exact nomatch hrun.symm.trans hr

end Sys2Proof.Machine
end

section
/-! PROOFS. The statements of 20_memory.md: what a read returns (R53), which images can be launched (R51, R52), who
stores (R58), and how a tick and its transactions depend on memory (R57, R58, R61, R62). -/

namespace Sys2Proof.Machine

variable {om : OpcodeMap} {s t : State} {m : Memory} {i : Instr} {f : Byte}

/-! ## Many writes -/

/-- A read after a list of writes returns the latest one at its address, or what was there before. -/
theorem Memory.read_foldl_store (writes : List (Byte × Byte)) (m : Memory) (a : Byte) :
    Memory.read (writes.foldl (fun m w => Memory.store m w.1.toNat w.2) m) a =
      ((writes.reverse.find? fun w => w.1 == a).map Prod.snd).getD (m.read a) := by
  induction writes using List.reverseRecOn with
  | nil => rfl
  | append_singleton ws w ih =>
    simp only [List.foldl_append, List.foldl_cons, List.foldl_nil, List.reverse_append, List.reverse_singleton,
      List.singleton_append, List.find?_cons]
    rw [Memory.read_store]
    by_cases h : a = w.1
    · simp [h]
    · simp [h, beq_eq_false_iff_ne.mpr (Ne.symm h), ih]

/-- The memory in which the listed addresses hold the bytes of an image. -/
def imageMemory (image : Byte → Byte) (addrs : List Byte) : Memory :=
  addrs.foldr (fun a m => m.store a.toNat (image a)) []

theorem wf_imageMemory (image : Byte → Byte) (addrs : List Byte) : (imageMemory image addrs).wf = true := by
  induction addrs with
  | nil => rfl
  | cons a addrs ih => exact Memory.wf_store a _ ih

theorem read_imageMemory (image : Byte → Byte) {addrs : List Byte} {a : Byte} (ha : a ∈ addrs) :
    (imageMemory image addrs).read a = image a := by
  induction addrs with
  | nil => exact nomatch ha
  | cons b addrs ih =>
    refine (Memory.read_store _ b a _).trans ?_
    split
    next hab => rw [hab]
    next hab => exact ih ((List.mem_cons.mp ha).resolve_left hab)

/-- The 256 bytes, listed. -/
theorem exists_list_of_bytes : ∃ addrs : List Byte, ∀ a, a ∈ addrs :=
  ⟨(List.finRange (2 ^ 8)).map BitVec.ofFin, fun a => List.mem_map.mpr ⟨a.toFin, List.mem_finRange _, rfl⟩⟩

/-! ## What an effect leaves of memory -/

/-- Memory is as before, or PUSH or CALL of a register stored one byte at the new SP (R58). -/
theorem Effect.mem_cases (h : Effect s i t) :
    t.mem = s.mem ∨
    (∃ r, i = .push r ∨ i = .call r) ∧ i.wellFormed = true ∧ ∃ v, t.mem = s.mem.store s.pushAddr.toNat v := by
  cases h with
  | push r h => exact .inr ⟨⟨r, .inl rfl⟩, firstIllegal?_eq_none_iff.mp (firstIllegal?_eq_none_one rfl h), _, rfl⟩
  | call r h => exact .inr ⟨⟨r, .inr rfl⟩, firstIllegal?_eq_none_iff.mp (firstIllegal?_eq_none_one rfl h), _, rfl⟩
  | _ => exact .inl rfl

theorem sameMem_of_mem_eq (h : t.mem = s.mem) : SameMem s t := fun a => by rw [State.memRead, h, State.memRead]

theorem sameMemBut_of_mem_store {a v : Byte} (h : t.mem = s.mem.store a.toNat v) : SameMemBut a s t :=
  fun b hb => by rw [State.memRead, h, Memory.read_store_other _ v hb, State.memRead]

/-! ## Transactions -/

theorem instrAccesses_with_mem (i : Instr) (s : State) (m : Memory) :
    instrAccesses i { s with mem := m } = instrAccesses i s := by cases i <;> rfl

theorem instrAccesses_pop_of_lt {r : Byte} (h : r.toNat < 8) : instrAccesses (.pop r) s = [.read s.sp] := by
  simp only [instrAccesses, State.popAccess, regIndex?_of_lt h]

theorem instrAccesses_push_of_lt {r : Byte} (h : r.toNat < 8) :
    instrAccesses (.push r) s = [.write s.pushAddr (s.reg ⟨r.toNat, h⟩)] := by
  simp only [instrAccesses, State.pushAccess, regIndex?_of_lt h]

theorem instrAccesses_call_of_lt {r : Byte} (h : r.toNat < 8) :
    instrAccesses (.call r) s = [.write s.pushAddr (s.pc + 2)] := by
  simp only [instrAccesses, State.pushAccess, regIndex?_of_lt h]

/-- One illegal register operand has no register index. -/
theorem regIndex?_of_firstIllegal? {r : Byte} (hi : i.regOperands = [r]) (h : i.firstIllegal? = some f) :
    regIndex? r = none := by
  rcases Nat.lt_or_ge r.toNat 8 with hr | hr
  · exact nomatch h.symm.trans (firstIllegal?_eq_none_one hi hr)
  · exact regIndex?_of_ge hr

/-- An instruction that takes the register fault makes no access. -/
theorem instrAccesses_of_firstIllegal? (h : i.firstIllegal? = some f) : instrAccesses i s = [] := by
  cases i with
  | push | call => simp only [instrAccesses, State.pushAccess, regIndex?_of_firstIllegal? rfl h]
  | pop => simp only [instrAccesses, State.popAccess, regIndex?_of_firstIllegal? rfl h]
  | ret => exact nomatch h
  | _ => rfl

theorem stepAccesses_of_decode (hrun : s.run = .running)
    (hd : decode om (s.memRead s.pc) (s.memRead (s.pc + 1)) (s.memRead (s.pc + 2)) = .ok i) :
    s.stepAccesses om = s.fetchAccesses ++ instrAccesses i s := by
  have hfetch : decode om s.fetch.opcode s.fetch.operandA s.fetch.operandB = .ok i := hd
  simp only [State.stepAccesses, hrun, hfetch]

theorem stepAccesses_of_unknownOpcode (hrun : s.run = .running) (hop : ∀ m, om m ≠ s.memRead s.pc) :
    s.stepAccesses om = s.fetchAccesses := by
  rcases stepAccesses_cases om s with ⟨r, hr, -⟩ | ⟨-, -, hacc⟩ | ⟨-, m, hm, -⟩
  · exact nomatch hrun.symm.trans hr
  · exact hacc
  · exact absurd hm (hop m)

theorem stepAccesses_of_halted {r : HaltReason} (h : s.run = .halted r) : s.stepAccesses om = [] := by
  simp only [State.stepAccesses, h]

/-! ## The same step over another memory -/

/-- Over a memory that agrees on the bytes an instruction reads, its effect is the same but for memory, which is that
memory with the instruction's accesses performed. -/
theorem Effect.with_mem (h : Effect s i t) (hread : ∀ a ∈ readAddrs (instrAccesses i s), m.read a = s.memRead a) :
    Effect { s with mem := m } i { t with mem := Memory.perform (instrAccesses i s) m } := by
  cases h with
  | fault i f hi => rw [instrAccesses_of_firstIllegal? hi]; exact .fault i f hi
  | hlt => exact .hlt
  | ldi r imm h => exact .ldi r imm h
  | prn r h => exact .prn r h
  | mul a b ha hb => exact .mul a b ha hb
  | add a b ha hb => exact .add a b ha hb
  | cmp a b ha hb => exact .cmp a b ha hb
  | push r h => rw [instrAccesses_push_of_lt h]; exact .push r h
  | call r h => rw [instrAccesses_call_of_lt h]; exact .call r h
  | pop r h =>
    rw [instrAccesses_pop_of_lt h] at hread ⊢
    rw [← hread s.sp (.head _)]
    exact .pop r h
  | ret =>
    rw [← hread s.sp (.head _)]
    exact .ret
  | jmp r h => exact .jmp r h
  | jeqTaken r h he => exact .jeqTaken r h he
  | jeqNot r h he => exact .jeqNot r h he
  | jneTaken r h he => exact .jneTaken r h he
  | jneNot r h he => exact .jneNot r h he

/-- The same for a tick, which also makes the same transactions. -/
theorem stepWith_with_mem (h : stepWith om s = .next t)
    (hread : ∀ a ∈ readAddrs (s.stepAccesses om), m.read a = s.memRead a) :
    stepWith om { s with mem := m } = .next { t with mem := Memory.perform (s.stepAccesses om) m } ∧
    State.stepAccesses om { s with mem := m } = s.stepAccesses om := by
  rcases stepWith_next h with ⟨r, hr, rfl⟩ | ⟨hrun, hop, rfl⟩ | ⟨hrun, i, hd, heff⟩
  · rw [stepAccesses_of_halted hr]
    exact ⟨stepWith_of_halted hr, stepAccesses_of_halted hr⟩
  · rw [stepAccesses_of_unknownOpcode hrun hop] at hread ⊢
    have hopcode : m.read s.pc = s.memRead s.pc := hread _ (.head _)
    rw [← hopcode] at hop ⊢
    exact ⟨stepWith_of_unknownOpcode hrun hop, stepAccesses_of_unknownOpcode hrun hop⟩
  · rw [stepAccesses_of_decode hrun hd] at hread ⊢
    have hfetch : m.read s.pc = s.memRead s.pc ∧ m.read (s.pc + 1) = s.memRead (s.pc + 1) ∧
        m.read (s.pc + 2) = s.memRead (s.pc + 2) :=
      ⟨hread _ (.head _), hread _ (.tail _ (.head _)), hread _ (.tail _ (.tail _ (.head _)))⟩
    obtain ⟨hopcode, hoperandA, hoperandB⟩ := hfetch
    have hreadInstr : ∀ a ∈ readAddrs (instrAccesses i s), m.read a = s.memRead a :=
      fun a ha => hread a (.tail _ (.tail _ (.tail _ ha)))
    rw [← hopcode, ← hoperandA, ← hoperandB] at hd
    have hacc : State.stepAccesses om { s with mem := m } = s.fetchAccesses ++ instrAccesses i { s with mem := m } :=
      stepAccesses_of_decode hrun hd
    have hstep : stepWith om { s with mem := m } = exec i { s with mem := m } := stepWith_of_decode hrun hd
    rw [hacc, instrAccesses_with_mem, hstep]
    exact ⟨exec_of_effect (heff.with_mem hreadInstr), rfl⟩

/-- The same transactions over two memories: at each address they leave the same byte, or neither has written it. -/
theorem Memory.read_perform_cases (l : List MemAccess) (m m' : Memory) (a : Byte) :
    (Memory.perform l m').read a = (Memory.perform l m).read a ∨
    ((Memory.perform l m).read a = m.read a ∧ (Memory.perform l m').read a = m'.read a) := by
  induction l generalizing m m' with
  | nil => exact .inr ⟨rfl, rfl⟩
  | cons x l ih =>
    cases x with
    | read b => exact ih m m'
    | write b v =>
      rcases ih (m.store b.toNat v) (m'.store b.toNat v) with hsame | ⟨hm, hm'⟩
      · exact .inl hsame
      · rw [Memory.read_store] at hm hm'
        by_cases hab : a = b
        · rw [if_pos hab] at hm hm'
          exact .inl (hm'.trans hm.symm)
        · rw [if_neg hab] at hm hm'
          exact .inr ⟨hm, hm'⟩

/-! ## Fetching a stored byte -/

/-- The fetch latches a byte of memory as whichever of the three it stands at. -/
theorem State.fetch_of_memRead {a v : Byte} (h : s.memRead a = v) :
    (s.pc = a → s.fetch.opcode = v) ∧ (s.pc + 1 = a → s.fetch.operandA = v) ∧ (s.pc + 2 = a → s.fetch.operandB = v) :=
  ⟨fun e => (congrArg s.memRead e).trans h, fun e => (congrArg s.memRead e).trans h,
    fun e => (congrArg s.memRead e).trans h⟩

theorem State.memRead_stackPush_same (s : State) (v : Byte) : (s.stackPush v).memRead s.pushAddr = v := by
  rw [memRead_stackPush, if_pos rfl]

theorem State.memRead_memWrite_same (s : State) (a v : Byte) : (s.memWrite a v).memRead a = v := by
  rw [memRead_memWrite, if_pos rfl]

/-! ## The statements -/

/-- Settles O46: the law of many writes, from the memory that nobody has written. -/
theorem readReturnsTheLatestWriteOrTheLaunchImage : Obligations.ReadReturnsTheLatestWriteOrTheLaunchImage :=
  fun writes a => Memory.read_foldl_store writes [] a

/-- Settles O47: the image is written at all 256 addresses. -/
theorem everyImageCanBeLaunched : Obligations.EveryImageCanBeLaunched := by
  intro image
  obtain ⟨addrs, hall⟩ := exists_list_of_bytes
  exact ⟨imageMemory image addrs, wf_imageMemory image addrs, fun a => read_imageMemory image (hall a)⟩

/-- Settles O48, from the two things an effect can leave of memory. -/
theorem onlyPushAndCallStore : Obligations.OnlyPushAndCallStore := by
  intro i s t h
  rcases (effect_of_exec h).mem_cases with hmem | ⟨⟨r, hi⟩, hwf, v, hmem⟩
  · exact ⟨fun _ _ a _ => sameMem_of_mem_eq hmem a, fun _ => sameMem_of_mem_eq hmem⟩
  · refine ⟨fun _ _ => sameMemBut_of_mem_store hmem, fun hno => ?_⟩
    rcases hno with hne | hill
    · exact absurd hi (not_or.mpr (hne r))
    · exact nomatch hwf.symm.trans hill

/-- Settles O49: the tick over its own memory. -/
theorem memoryChangesByTheTransactionsOfTheTick : Obligations.MemoryChangesByTheTransactionsOfTheTick := by
  intro om s t h
  obtain ⟨hstep, -⟩ := stepWith_with_mem (m := s.mem) h fun _ _ => rfl
  have ht : t = { t with mem := Memory.perform (s.stepAccesses om) s.mem } := by
    injection h.symm.trans hstep
  exact congrArg State.mem ht

/-- Settles O50: the tick over the other memory, whose transactions are the same. -/
theorem tickDependsOnlyOnTheBytesItReads : Obligations.TickDependsOnlyOnTheBytesItReads := by
  intro om s m hread
  obtain ⟨t, ht⟩ := stepWith_total om s
  obtain ⟨ht', hacc⟩ := stepWith_with_mem ht hread
  refine ⟨t, _, ht, ht', rfl, rfl, rfl, rfl, rfl, hacc, fun a => ?_⟩
  have hmem := memoryChangesByTheTransactionsOfTheTick om s t ht
  rw [State.memRead, State.memRead, hmem]
  exact Memory.read_perform_cases _ s.mem m a

/-- Settles O51: PUSH and CALL store at the new SP, a poke at its address. -/
theorem storesAreSeenByTheNextFetch : Obligations.StoresAreSeenByTheNextFetch := by
  refine ⟨fun r hr s => ⟨_, exec_push_of_lt hr, State.fetch_of_memRead ?_⟩,
    fun r hr s => ⟨_, exec_call_of_lt hr, State.fetch_of_memRead ?_⟩,
    fun om s a v => ⟨_, rfl, State.fetch_of_memRead (s.memRead_memWrite_same a v)⟩⟩
  · exact s.memRead_stackPush_same _
  · exact s.memRead_stackPush_same _

end Sys2Proof.Machine
end

section
/-! PROOFS. The statements of 10_state.md and 42_alu.md that hold along every run: reset and stop (R36, R39), the
invariant (R122), and that output only grows (R33). -/

namespace Sys2Proof.Machine

variable {om : OpcodeMap} {s t : State} {x : HostInput} {l : List HostInput}

/-! ## Reset -/

/-- R0 to R6 are zero after reset (R39). -/
theorem reset_reg : ∀ i : RegIdx, i.val < 7 → State.reset.reg i = 0x00 := by decide

/-- FL reads as zero after reset (R39). -/
theorem reset_fl_toByte : State.reset.fl.toByte = 0x00 := rfl

/-- Settles O1: the reset input is the reset state over the memory of the state it is given in. -/
theorem resetGivesResetValuesAndKeepsMemory : Obligations.ResetGivesResetValuesAndKeepsMemory :=
  ⟨fun _ => ⟨reset_reg, rfl, rfl, reset_fl_toByte, rfl, rfl, fun _ => rfl⟩,
    reset_reg, rfl, rfl, rfl, rfl, rfl, fun _ => rfl⟩

/-- Settles O2, from the two cases of the run state. -/
theorem stopInputHaltsOnlyARunningCore : Obligations.StopInputHaltsOnlyARunningCore :=
  fun _ _ => ⟨fun hrun => congrArg _ (State.stopInput_of_running hrun),
    fun _ hr => congrArg _ (State.stopInput_of_halted hr)⟩

/-! ## The invariant -/

/-- The comparison sets exactly one flag (R120). -/
theorem compareFlags_legal (va vb : Byte) : (compareFlags va vb).Legal := by
  rcases compareFlags_cases va vb with ⟨-, h⟩ | ⟨-, h⟩ | ⟨-, h⟩ <;> rw [h]
  · exact .inr (.inr (.inr rfl))
  · exact .inr (.inl rfl)
  · exact .inr (.inr (.inl rfl))

theorem Effect.inv {i : Instr} (h : Effect s i t) (hs : s.Inv) : t.Inv := by
  obtain ⟨hmem, hfl⟩ := hs
  constructor
  · rcases h.mem_cases with e | ⟨-, -, v, e⟩ <;> rw [e]
    · exact hmem
    · exact Memory.wf_store _ v hmem
  · rcases h.fl_cases with e | ⟨-, -, va, vb, -, e⟩ <;> rw [e]
    · exact hfl
    · exact compareFlags_legal va vb

/-- A tick keeps the invariant: it changes nothing of memory and FL, or it is an effect. -/
theorem stepWith_inv (hs : s.Inv) (h : stepWith om s = .next t) : t.Inv := by
  rcases stepWith_next h with ⟨-, -, rfl⟩ | ⟨-, -, rfl⟩ | ⟨-, i, -, heff⟩
  · exact hs
  · exact hs
  · exact heff.inv hs

theorem State.stopInput_inv (hs : s.Inv) : s.stopInput.Inv := by
  rcases hrun : s.run with _ | r
  · rw [stopInput_of_running hrun]
    exact hs
  · rw [stopInput_of_halted hrun]
    exact hs

/-- Every input answers a next state, which has the invariant. -/
theorem State.input_inv (om : OpcodeMap) (hs : s.Inv) (x : HostInput) : ∃ t, s.input om x = .next t ∧ t.Inv := by
  have ⟨hmem, hfl⟩ := hs
  cases x with
  | tick =>
    obtain ⟨t, ht⟩ := stepWith_total om s
    exact ⟨t, ht, stepWith_inv hs ht⟩
  | reset => exact ⟨_, rfl, hmem, .inl reset_fl_toByte⟩
  | stop => exact ⟨_, rfl, stopInput_inv hs⟩
  | poke a v => exact ⟨_, rfl, Memory.wf_store a v hmem, hfl⟩

/-- Settles O54. -/
theorem invariantHoldsAfterReset : Obligations.InvariantHoldsAfterReset :=
  ⟨⟨reset_mem_wf, .inl reset_fl_toByte⟩, fun _ hm => ⟨hm, .inl reset_fl_toByte⟩⟩

/-- Settles O55: `step` is the tick under the default map. -/
theorem everyStepKeepsTheInvariant : Obligations.EveryStepKeepsTheInvariant :=
  fun _ _ _ hs => ⟨stepWith_inv hs, stepWith_inv (om := defaultOpcodeMap) hs⟩

/-- Settles O56, by induction on the sequence of inputs. -/
theorem everyInputSequenceKeepsTheInvariant : Obligations.EveryInputSequenceKeepsTheInvariant := by
  intro om l
  induction l with
  | nil => exact fun s hs => ⟨s, rfl, hs⟩
  | cons x l ih =>
    intro s hs
    obtain ⟨u, hu, huInv⟩ := State.input_inv om hs x
    rw [State.inputs_cons_of_next hu]
    exact ih u huInv

/-! ## Output -/

/-- Settles O52, from the three things a tick can do and the two that an effect can do to the output. -/
theorem tickOutputsAtMostOneEvent : Obligations.TickOutputsAtMostOneEvent := by
  intro om s t h
  rcases stepWith_next h with ⟨-, -, rfl⟩ | ⟨hrun, hop, rfl⟩ | ⟨hrun, i, hd, heff⟩
  · exact .inl rfl
  · exact .inr (.inr ⟨hrun, hop, rfl⟩)
  · rcases heff.out_cases with hsame | ⟨r, hr, rfl, hout⟩
    · exact .inl hsame
    · exact .inr (.inl ⟨r, hr, hrun, hd, hout⟩)

/-- A tick appends at most one event. -/
theorem stepWith_out (h : stepWith om s = .next t) : ∃ es : List Event, t.out = s.out ++ es ∧ es.length ≤ 1 := by
  rcases tickOutputsAtMostOneEvent om s t h with hsame | ⟨r, hr, -, -, hout⟩ | ⟨-, -, hout⟩
  · exact ⟨[], hsame.trans (List.append_nil _).symm, Nat.zero_le 1⟩
  · exact ⟨_, hout, Nat.le_refl 1⟩
  · exact ⟨_, hout, Nat.le_refl 1⟩

theorem State.stopInput_out (s : State) : s.stopInput.out = s.out := by
  rcases hrun : s.run with _ | r
  · rw [stopInput_of_running hrun, halt_out]
  · rw [stopInput_of_halted hrun]

/-- Of the inputs but reset, only a tick appends to the output, at most one event. -/
theorem State.input_out (hx : x ≠ .reset) (h : s.input om x = .next t) :
    ∃ es : List Event, t.out = s.out ++ es ∧ es.length ≤ [x].count .tick := by
  cases x with
  | tick => exact stepWith_out h
  | reset => exact absurd rfl hx
  | stop =>
    injection h with h
    subst h
    exact ⟨[], s.stopInput_out.trans (List.append_nil _).symm, Nat.zero_le _⟩
  | poke a v =>
    injection h with h
    subst h
    exact ⟨[], (List.append_nil _).symm, Nat.zero_le _⟩

/-- A sequence of inputs that goes through goes through its first input. -/
theorem State.inputs_cons_next (h : s.inputs om (x :: l) = .next t) :
    ∃ u, s.input om x = .next u ∧ u.inputs om l = .next t := by
  rcases hx : s.input om x with u | r | r
  case next => exact ⟨u, rfl, (inputs_cons_of_next hx l).symm.trans h⟩
  case fault | refused =>
    simp only [State.inputs, hx] at h
    exact nomatch h

/-- Settles O53, by induction on the sequence of inputs. -/
theorem outputOnlyGrowsUntilReset : Obligations.OutputOnlyGrowsUntilReset := by
  intro om l
  induction l with
  | nil =>
    intro s t _ h
    injection h with h
    subst h
    exact ⟨[], (List.append_nil _).symm, Nat.le_refl 0⟩
  | cons x l ih =>
    intro s t hl h
    obtain ⟨hx, hl⟩ := not_or.mp (mt List.mem_cons.mpr hl)
    obtain ⟨u, hu, ht⟩ := State.inputs_cons_next h
    obtain ⟨es, hes, hlen⟩ := State.input_out (Ne.symm hx) hu
    obtain ⟨es', hes', hlen'⟩ := ih u t hl ht
    refine ⟨es ++ es', by rw [hes', hes, List.append_assoc], ?_⟩
    calc (es ++ es').length = es.length + es'.length := List.length_append
      _ ≤ [x].count .tick + l.count .tick := Nat.add_le_add hlen hlen'
      _ = (x :: l).count .tick := List.count_append.symm

end Sys2Proof.Machine
end

section
/-! PROOFS. The statements of 42_alu.md and of 10_state.md, section 3, on values: the ALU's laws (R110, R111), what CMP
leaves (R120), the layout of FL (R27), and the jumps that follow a CMP (R155). -/

namespace Sys2Proof.Machine

variable {s : State}

/-! ## The ALU over two's-complement readings -/

theorem ofNat_add_eq_ofInt (va vb : Byte) :
    BitVec.ofNat 8 (va.toNat + vb.toNat) = BitVec.ofInt 8 (va.toInt + vb.toInt) := by
  rw [BitVec.ofInt_add, BitVec.ofInt_toInt, BitVec.ofInt_toInt, ← BitVec.toNat_inj,
    BitVec.toNat_ofNat, BitVec.toNat_add]

theorem ofNat_mul_eq_ofInt (va vb : Byte) :
    BitVec.ofNat 8 (va.toNat * vb.toNat) = BitVec.ofInt 8 (va.toInt * vb.toInt) := by
  rw [BitVec.ofInt_mul, BitVec.ofInt_toInt, BitVec.ofInt_toInt, ← BitVec.toNat_inj,
    BitVec.toNat_ofNat, BitVec.toNat_mul]

/-! ## The comparison -/

/-- FL after the comparison: 0x01, 0x04 or 0x02, by the order of the unsigned values (R120). -/
theorem compareFlags_toByte (va vb : Byte) : (compareFlags va vb).toByte =
    if va.toNat = vb.toNat then 0x01 else if va.toNat < vb.toNat then 0x04 else 0x02 := by
  rcases compareFlags_cases va vb with ⟨hlt, h⟩ | ⟨heq, h⟩ | ⟨hgt, h⟩
  · rw [h, if_neg hlt.ne, if_pos hlt]; rfl
  · rw [h, if_pos heq]; rfl
  · rw [h, if_neg hgt.ne', if_neg hgt.le.not_gt]; rfl

/-! ## The layout of FL -/

/-- A byte written as a whole gives each flag the bit of its number (R27). -/
theorem Flags.get_ofByte (v : Byte) (b : FlagBit) : (Flags.ofByte v).get b = v.getLsbD b.number := by
  cases b <;> rfl

/-- The mask 0x07 is the bits below 3. -/
theorem getLsbD_seven (k : Nat) : (0x07 : Byte).getLsbD k = decide (k < 3) := by
  rcases FlagBit.number_or_three_le k with ⟨b, rfl⟩ | hk
  · cases b <;> rfl
  · rw [decide_eq_false hk.not_gt]
    exact Nat.testBit_lt_two_pow (Nat.lt_of_lt_of_le (by decide) (Nat.pow_le_pow_right (by decide) hk))

theorem Flags.toByte_ofByte (v : Byte) : (Flags.ofByte v).toByte = v &&& 0x07 := by
  refine BitVec.eq_of_getLsbD_eq fun k _ => ?_
  rw [BitVec.getLsbD_and, getLsbD_seven]
  rcases FlagBit.number_or_three_le k with ⟨b, rfl⟩ | hk
  · rw [getLsbD_toByte_number, get_ofByte, decide_eq_true b.number_lt, Bool.and_true]
  · rw [getLsbD_toByte_of_three_le _ hk, decide_eq_false hk.not_gt, Bool.and_false]

/-! ## The statements -/

/-- Settles O6: the exact result cut to 8 bits is the sum or product of the bytes, whichever way they are read. -/
theorem aluComputesExactlyAndKeepsTheLowByte : Obligations.AluComputesExactlyAndKeepsTheLowByte := by
  intro va vb
  refine ⟨⟨_, rfl, BitVec.toNat_ofNat _ _, ofNat_add_eq_ofInt va vb⟩,
    ⟨_, rfl, BitVec.toNat_ofNat _ _, ofNat_mul_eq_ofInt va vb⟩,
    ⟨_, rfl, decide_eq_true_iff, decide_eq_true_iff, decide_eq_true_iff⟩, fun op => ?_⟩
  cases op with
  | multiply => exact .inl rfl
  | add => exact .inr (.inl rfl)
  | compare => exact .inr (.inr rfl)

/-- Settles O9: the next state writes FL with the comparison's flags and advances, or takes the register fault of the
first illegal operand. -/
theorem cmpSetsExactlyOneFlag : Obligations.CmpSetsExactlyOneFlag := by
  intro om a b s
  refine ⟨rfl, rfl, fun ha hb => ⟨_, exec_cmp_of_lt ha hb, ?_⟩, execAlu_of_ge_first, execAlu_of_ge_second⟩
  have hpc := (s.setFlags (compareFlags (s.reg ⟨a.toNat, ha⟩) (s.reg ⟨b.toNat, hb⟩))).toNat_advance_pc 2
  exact ⟨compareFlags_toByte _ _, decide_eq_true_iff, decide_eq_true_iff, decide_eq_true_iff, fun _ => rfl, hpc, rfl,
    rfl, fun _ => rfl⟩

/-- Settles O12: each bit of FL is a named flag or reads as zero. -/
theorem flagsByteHasLayoutLGE : Obligations.FlagsByteHasLayoutLGE :=
  ⟨fun f => ⟨f.getLsbD_toByte_number .E, f.getLsbD_toByte_number .G, f.getLsbD_toByte_number .L,
    fun _ hk => f.getLsbD_toByte_of_three_le hk⟩, Flags.toByte_ofByte⟩

/-- Settles O25: after the CMP Equal is the equality of the two values, JEQ jumps on it and JNE on its negation. -/
theorem jeqAndJneAreComplementaryAfterCmp : Obligations.JeqAndJneAreComplementaryAfterCmp := by
  intro a b r ha hb hr s
  refine ⟨_, _, _, exec_cmp_of_lt ha hb, exec_jeq_of_lt hr, exec_jne_of_lt hr, ?_⟩
  generalize ht : (s.setFlags (compareFlags (s.reg ⟨a.toNat, ha⟩) (s.reg ⟨b.toNat, hb⟩))).advance 2 = t
  have hequal : t.fl.e = true ↔ s.reg ⟨a.toNat, ha⟩ = s.reg ⟨b.toNat, hb⟩ := ht ▸ compareFlags_e_iff _ _
  have hreg : t.reg ⟨r.toNat, hr⟩ = s.reg ⟨r.toNat, hr⟩ := ht ▸ rfl
  have hpc : (t.pc.toNat + 2) % 256 = (s.pc.toNat + 5) % 256 := by
    rw [← ht, State.toNat_advance_pc, State.setFlags_pc]
    omega
  obtain ⟨hjeq, hjeqNot⟩ := t.jumpIf_pc t.fl.e (t.reg ⟨r.toNat, hr⟩) 1
  obtain ⟨hjne, hjneNot⟩ := t.jumpIf_pc (!t.fl.e) (t.reg ⟨r.toNat, hr⟩) 1
  refine ⟨fun h => ?_, fun h => ?_⟩
  · have he : t.fl.e = true := hequal.mpr h
    exact ⟨(hjeq he).trans hreg, (hjneNot (congrArg not he)).trans hpc⟩
  · have he : t.fl.e = false := Bool.eq_false_iff.mpr fun he => h (hequal.mp he)
    exact ⟨(hjeqNot he).trans hpc, (hjne (congrArg not he)).trans hreg⟩

end Sys2Proof.Machine
end

section
/-! PROOFS. The statements of 43_stack.md, 44_control.md and 20_memory.md, section 4, on the stack: PUSH and POP (R132,
R135 to R137), CALL and RET (R143, R144), the stack's wrap (R64); and HLT and the loop of a JMP to itself (R140,
R188). -/

namespace Sys2Proof.Machine

variable {s : State} {r : Byte} {om : OpcodeMap}

/-! ## SP -/

theorem State.toNat_pushAddr (s : State) : s.pushAddr.toNat = (s.sp.toNat + 255) % 256 := by
  rw [pushAddr]
  bv_omega

theorem State.toNat_sp_succ (s : State) : (s.sp + 1).toNat = (s.sp.toNat + 1) % 256 := BitVec.toNat_add s.sp 1

theorem State.pushAddr_succ (s : State) : s.pushAddr + 1 = s.sp := BitVec.sub_add_cancel s.sp 1

/-- A push stores the byte at the new SP, and writes nothing else of memory and registers (R130). -/
theorem State.stackPush_frame (s : State) (v : Byte) :
    (s.stackPush v).memRead s.pushAddr = v ∧ SameMemBut s.pushAddr s (s.stackPush v) ∧
    (s.stackPush v).sp = s.pushAddr ∧ SameRegsBut [spIdx] s (s.stackPush v) :=
  ⟨s.memRead_stackPush_same v, sameMemBut_of_mem_store rfl, s.sp_setSp s.pushAddr, s.sameRegsBut_stackPush v⟩

theorem exec_push_of_ge (h : 8 ≤ r.toNat) :
    exec (.push r) s = .next { s with run := .halted (.illegalRegister r) } := checkReg_of_ge_halts h

theorem exec_pop_of_ge (h : 8 ≤ r.toNat) :
    exec (.pop r) s = .next { s with run := .halted (.illegalRegister r) } := checkReg_of_ge_halts h

theorem exec_call_of_ge (h : 8 ≤ r.toNat) :
    exec (.call r) s = .next { s with run := .halted (.illegalRegister r) } := checkReg_of_ge_halts h

/-! ## What a pop into a register leaves -/

/-- The destination is written last: SP is incremented unless it is the destination (R135, R136). -/
theorem State.sp_setSp_setReg (s : State) (j : RegIdx) (v w : Byte) :
    ((s.setSp v).setReg j w).sp = if spIdx = j then w else v := by
  rw [sp, reg_setReg, reg_setSp, if_pos rfl]

/-- A byte names SP if it is 7 (R21). -/
theorem spIdx_eq_iff (hr : r.toNat < 8) : spIdx = ⟨r.toNat, hr⟩ ↔ r.toNat = 7 := Fin.ext_iff.trans eq_comm

/-- Where SP is not the destination, a pop increments it. -/
theorem State.sp_pop_of_ne (s : State) (hr : r.toNat < 8) (h : r.toNat ≠ 7) (v w : Byte) :
    ((s.setSp v).setReg ⟨r.toNat, hr⟩ w).sp = v := by
  rw [sp_setSp_setReg, if_neg (mt (spIdx_eq_iff hr).mp h)]

/-- A push and a pop of the same value bring every register back, the destination included. -/
theorem State.reg_stackPush_pop (s : State) (j k : RegIdx) :
    (((s.stackPush (s.reg j)).setSp s.sp).setReg j (s.reg j)).reg k = s.reg k := by
  rw [reg_setReg, reg_setSp, reg_stackPush]
  split
  next hj => rw [hj]
  next =>
    split
    next hsp => rw [hsp]; rfl
    next => rfl

/-! ## The statements -/

/-- Settles O14: the next state is a push and an advance of one operand byte, or the register fault. -/
theorem pushStoresBelowSp : Obligations.PushStoresBelowSp := by
  intro om r s
  refine ⟨rfl, rfl, s.toNat_pushAddr, fun hr => ⟨_, exec_push_of_lt hr, ?_⟩, exec_push_of_ge⟩
  have hpc := (s.stackPush (s.reg ⟨r.toNat, hr⟩)).toNat_advance_pc 1
  obtain ⟨hbyte, hmem, hsp, hregs⟩ := s.stackPush_frame (s.reg ⟨r.toNat, hr⟩)
  exact ⟨hbyte, hmem, hsp, hregs, hpc, rfl, rfl, rfl⟩

/-- Settles O15: the next state is a write of SP, the write of the destination and an advance, or the register fault. -/
theorem popLoadsFromSp : Obligations.PopLoadsFromSp := by
  intro om r s
  refine ⟨rfl, rfl, fun hr => ⟨_, exec_pop_of_lt hr, ?_⟩, exec_pop_of_ge⟩
  have hload := (s.setSp (s.sp + 1)).reg_setReg_same ⟨r.toNat, hr⟩ (s.memRead s.sp)
  have hregs : SameRegsBut [⟨r.toNat, hr⟩, spIdx] s ((s.setSp (s.sp + 1)).setReg ⟨r.toNat, hr⟩ (s.memRead s.sp)) :=
    fun j hj => s.sameRegsBut_setSp_setReg _ _ _ j fun h => hj ((List.Perm.swap _ _ _).mem_iff.mp h)
  have hpc := ((s.setSp (s.sp + 1)).setReg ⟨r.toNat, hr⟩ (s.memRead s.sp)).toNat_advance_pc 1
  refine ⟨hload, fun h => ?_, fun h => ?_, hregs, hpc, rfl, rfl, rfl, fun _ => rfl⟩
  · exact (congrArg BitVec.toNat (s.sp_pop_of_ne hr h _ _)).trans s.toNat_sp_succ
  · exact (s.sp_setSp_setReg _ _ _).trans (if_pos ((spIdx_eq_iff hr).mpr h))

/-- Settles O16: the POP finds SP at the pushed byte, so that it brings back both SP and the register. -/
theorem pushThenPopRestoresEveryRegister : Obligations.PushThenPopRestoresEveryRegister := by
  intro r hr s
  refine ⟨_, _, exec_push_of_lt hr, exec_pop_of_lt hr, ?_⟩
  obtain ⟨hbyte, hmem, hspush, -⟩ := s.stackPush_frame (s.reg ⟨r.toNat, hr⟩)
  generalize ht : (s.stackPush (s.reg ⟨r.toNat, hr⟩)).advance 1 = t
  have hsp : t.sp = s.pushAddr := ht ▸ hspush
  have hpopped : t.memRead t.sp = s.reg ⟨r.toNat, hr⟩ := by
    rw [hsp, ← ht]
    exact hbyte
  rw [hpopped, hsp, s.pushAddr_succ, ← ht]
  refine ⟨s.reg_stackPush_pop _, hbyte, hmem, ?_, rfl, rfl, rfl⟩
  rw [State.toNat_advance_pc, State.setReg_pc, State.setSp_pc, State.toNat_advance_pc, State.stackPush_pc]
  omega

/-- Settles O17: 0x00 - 1 is 0xFF and 0xFF + 1 is 0x00. -/
theorem stackWrapsAtBothEnds : Obligations.StackWrapsAtBothEnds := by
  intro r hr s
  refine ⟨fun hsp => ?_, fun hsp => ?_⟩
  · have hpush : s.pushAddr = 0xFF := by rw [State.pushAddr, hsp]; rfl
    obtain ⟨hmemPush, -, hspPush, -⟩ := s.stackPush_frame (s.reg ⟨r.toNat, hr⟩)
    obtain ⟨hmemCall, -, hspCall, -⟩ := s.stackPush_frame (s.pc + 2)
    rw [hpush] at hmemPush hspPush hmemCall hspCall
    exact ⟨⟨_, exec_push_of_lt hr, hspPush, hmemPush, rfl⟩, ⟨_, exec_call_of_lt hr, hspCall, hmemCall, rfl⟩⟩
  · have hwrap : s.sp + 1 = 0x00 := by rw [hsp]; rfl
    have hread : s.memRead s.sp = s.memRead 0xFF := by rw [hsp]
    refine ⟨⟨_, exec_ret s, (s.sp_setSp _).trans hwrap, hread, rfl⟩, fun h => ⟨_, exec_pop_of_lt hr, ?_, ?_, rfl⟩⟩
    · exact (s.sp_pop_of_ne hr h _ _).trans hwrap
    · exact (State.reg_setReg_same _ _ _).trans hread

/-- Settles O18: the next state is the halt and an advance of no operand byte. -/
theorem hltHaltsAfterItself : Obligations.HltHaltsAfterItself := by
  intro om s
  have hpc := (s.halt .hlt).toNat_advance_pc 0
  exact ⟨rfl, rfl, _, rfl, rfl, hpc, fun _ => rfl, rfl, rfl, fun _ => rfl⟩

/-- Settles O19: the next state is a push of the return address and a write of the pc, or the register fault. -/
theorem callPushesPcPlusTwoAndJumps : Obligations.CallPushesPcPlusTwoAndJumps := by
  intro om r s
  refine ⟨rfl, rfl, s.toNat_pushAddr, fun hr => ⟨_, exec_call_of_lt hr, rfl, ?_⟩, exec_call_of_ge⟩
  obtain ⟨hbyte, hmem, hsp, hregs⟩ := s.stackPush_frame (s.pc + 2)
  have hreturn := (congrArg BitVec.toNat hbyte).trans (BitVec.toNat_add s.pc 2)
  exact ⟨hreturn, hmem, hsp, hregs, rfl, rfl, rfl⟩

/-- Settles O21: the RET pops the byte CALL pushed, and moves SP back up. -/
theorem retReturnsBehindItsCall : Obligations.RetReturnsBehindItsCall := by
  intro r hr s t h
  obtain ⟨-, -, -, hcall, -⟩ := callPushesPcPlusTwoAndJumps defaultOpcodeMap r s
  obtain ⟨t', ht', hpc, hreturn, -, hsp, -⟩ := hcall hr
  obtain rfl : t' = t := by injection ht'.symm.trans h
  refine ⟨hpc, fun u husp humem => ⟨_, exec_ret u, ?_, ?_⟩⟩
  · rw [State.setPc_pc, husp, humem, hsp, hreturn]
  · exact (u.sp_setSp _).trans (by rw [husp, hsp, s.pushAddr_succ])

/-- Settles O26: the jump to the pc is no change, tick by tick. -/
theorem jmpToItselfNeverHalts : Obligations.JmpToItselfNeverHalts := by
  intro om s r hr hrun hd hself n
  have htick : s.input om .tick = .next s := by
    calc stepWith om s = exec (.jmp r) s := stepWith_of_decode hrun hd
      _ = .next (s.setPc s.pc) := by rw [exec_jmp_of_lt hr, hself]
      _ = .next s := rfl
  induction n with
  | zero => rfl
  | succ n ih => rw [List.replicate_succ, State.inputs_cons_of_next htick, ih]

end Sys2Proof.Machine
end
